-- ==== Sys2Proof/Word.lean ====
section
/-! DEFINITION. The word types of T2G-DEC: the 32-bit command word (R60), the byte of BUF (R21) and the string whose
characters are carried as one ASCII byte each (R14, R22). -/

namespace Sys2Proof

/-- A command word (R60). -/
abbrev Word := BitVec 32

/-- One byte of an operand buffer, or one character as its ASCII code (R14, R21, R22). -/
abbrev Byte := BitVec 8

/-- A string: a finite sequence of characters, each carried as its ASCII code (R14). -/
abbrev Text := List Byte

end Sys2Proof
end

