-- ==== Sys2Proof/Machine/Bits.lean ====
section
/-! DEFINITION. Byte order, value slices and the hexadecimal forms (R10, R12, R13, R80, R83). -/

namespace Sys2Proof.Machine

/-- The ASCII codes of a string literal, used for the fixed names of the spec (R14). -/
def ascii (s : String) : Text := s.toList.map fun c => BitVec.ofNat 8 c.toNat

/-- `BE(b)`, the big-endian value; of the empty sequence 0 (R12). -/
def beNat : List Byte → Nat
  | [] => 0
  | b :: bs => b.toNat * 256 ^ bs.length + beNat bs

/-- `BEbytes_k(v)`, the k-byte big-endian sequence of v (R12). -/
def beBytes : Nat → Nat → List Byte
  | 0, _ => []
  | k + 1, v => BitVec.ofNat 8 (v / 256 ^ k) :: beBytes k v

/-- `v[hi:lo]`, a slice of a value, bit 0 the least significant (R10). -/
def valBits (v hi lo : Nat) : Nat := (v >>> lo) % 2 ^ (hi - lo + 1)

/-- The lowercase hexadecimal digit of a value below 16, as its ASCII code (R80, R83). -/
def hexChar (d : Nat) : Byte := if d < 10 then BitVec.ofNat 8 (0x30 + d) else BitVec.ofNat 8 (0x61 + (d - 10))

/-- `hexpad_k(v)`: lowercase, exactly k digits, zero-padded on the left (R13). -/
def hexpad : Nat → Nat → Text
  | 0, _ => []
  | k + 1, v => hexChar (v / 16 ^ k % 16) :: hexpad k v

/-- `hexlower(v)`: lowercase, no leading zeros, "0" for 0 (R13, R83). -/
def hexlower (v : Nat) : Text := hexpad (v.log2 / 4 + 1) v

/-- The value of a hexadecimal digit character of either case; none for every other character (R80). -/
def hexVal (c : Byte) : Option Nat :=
  if 0x30 ≤ c.toNat ∧ c.toNat ≤ 0x39 then some (c.toNat - 0x30)
  else if 0x41 ≤ c.toNat ∧ c.toNat ≤ 0x46 then some (c.toNat - 0x41 + 10)
  else if 0x61 ≤ c.toNat ∧ c.toNat ≤ 0x66 then some (c.toNat - 0x61 + 10)
  else none

/-- The digit values of a string, none if some character is no hexadecimal digit (R80). -/
def hexDigits : Text → Option (List Nat)
  | [] => some []
  | c :: cs =>
    match hexVal c, hexDigits cs with
    | some d, some ds => some (d :: ds)
    | _, _ => none

/-- The big-endian value of hexadecimal digits, the sum of d_i * 16^(n-1-i) (R82, R145). -/
def digitsNat : List Nat → Nat
  | [] => 0
  | d :: ds => d * 16 ^ ds.length + digitsNat ds

/-- The bytes of hexadecimal digits taken in pairs, the first of a pair the high nibble (R81, R201). -/
def pairBytes : List Nat → List Byte
  | hi :: lo :: rest => BitVec.ofNat 8 (16 * hi + lo) :: pairBytes rest
  | _ => []

end Sys2Proof.Machine
end

