-- ==== Sys2Proof/Config.lean ====
section
/-! DEFINITION. What an implementation fixes (R8, R120) and the one free value of the spec, the wake-vortex names (R172). -/

namespace Sys2Proof

/-- `BUFMAX`: capacity of BUF in bytes (R8, R21). -/
abbrev Config.bufMax : Nat := 14

/-- `STRMAX`: capacity of STR in characters (R8, R22). -/
abbrev Config.strMax : Nat := 32

/-- `POLY`: the generator polynomial as an XOR mask on the 24-bit CRC register (R120). -/
abbrev Config.poly : BitVec 24 := 0xFFF409#24

/-- `WV_NAME`: the wake-vortex names of (TC, CAT) in {2, 3, 4} x {0..7}, which the spec leaves OPEN (R8, R172, D22).
A FREE VALUE: it has no body, so nothing can be proved of a name, and a claim about one holds for every table.
The first argument is TC - 2. Safe. Log entry 1. -/
opaque Config.wvName : Fin 3 → Fin 8 → Text

end Sys2Proof
end

