-- ==== Sys2Proof/Machine/CrcTable.lean ====
section
/-! DEFINITION. The CRC-24 table that reset builds (R120, R121, R250). -/

namespace Sys2Proof.Machine

/-- One of the eight steps of TABLE_F: bit 23 is tested before the shift (R121, D9). -/
def crcShift (acc : BitVec 24) : BitVec 24 :=
  if acc.getLsbD 23 then (acc <<< 1) ^^^ Config.poly else acc <<< 1

/-- `TABLE_F(i)`: the byte starts in bits 23..16, eight steps (R121). -/
def tableF (i : BitVec 8) : BitVec 24 := crcShift^[8] (i.setWidth 24 <<< 16)

/-- CRC_TABLE as reset builds it: entry i is TABLE_F(i) for i = 0..255 (R121, R250). -/
def tableInit : Vector (BitVec 24) 256 :=
  ⟨((List.range 256).map fun i => tableF (BitVec.ofNat 8 i)).toArray, by simp⟩

end Sys2Proof.Machine
end

