-- ==== Sys2Proof/Machine/State.lean ====
section
/-! DEFINITION. The state of T2G-DEC (10_state.md): the operand registers, the CRC table, STATUS and the typed RESULT,
the host's side of the port; the reasons a step can stop; the state after reset. -/

namespace Sys2Proof.Machine

/-- The error kinds a command can end with (R64). Their codes are in Flags.lean. -/
inductive Err where
  /-- Wrong buffer length, non-hex string or malformed hex. -/
  | inputFormat
  /-- An address outside 0..0xFFFFFF. -/
  | valueRange
  /-- Gray-code altitude, Q = 0. -/
  | unsupportedEncoding
  /-- A slicer contract violation. -/
  | sliceRange
  /-- A surveillance status outside 0..3. -/
  | decodeError
  /-- A reserved OP, C not 0, or a must-be-zero immediate not 0. -/
  | illegalCommand
  deriving DecidableEq, Repr

/-- A normalised 24-bit address: the raw value and its string form (R29, R142). -/
structure Addr where
  val : BitVec 24
  str : Text
  deriving DecidableEq, Repr

/-- What the CRC check of a frame reports (R126). -/
structure CrcCheck where
  crc : BitVec 24
  emb : BitVec 24
  matched : Bool
  hex : Text
  deriving DecidableEq, Repr

/-- A decoded 56-bit ME field: one of nine variants with the field widths of R31 and R97 to R99. -/
inductive MeVariant where
  /-- TC 1 to 4: identification (R97). -/
  | ident (tc : BitVec 5) (cat : BitVec 3) (callsign : Text) (wv : Text)
  /-- TC 9 to 18: airborne position, barometric altitude in feet (R98). -/
  | posBaro (tc : BitVec 5) (ss : Text) (saf : BitVec 1) (alt : Int) (t f : BitVec 1) (lat lon : BitVec 17)
  /-- TC 19: airborne velocity, every field raw (R99). -/
  | velocity (tc : BitVec 5) (st : BitVec 3) (ic ifr : BitVec 1) (nuc : BitVec 3) (velRaw : BitVec 22) (vrSrc sVr : BitVec 1)
      (vr : BitVec 9) (rsv : BitVec 2) (sDif : BitVec 1) (dif : BitVec 7)
  /-- TC 20 to 22: airborne position, GNSS altitude in metres (R98). -/
  | posGnss (tc : BitVec 5) (ss : Text) (saf : BitVec 1) (alt : BitVec 12) (t f : BitVec 1) (lat lon : BitVec 17)
  /-- TC 23 to 27: name only (R195). -/
  | reserved (tc : BitVec 5) (name : Text)
  /-- TC 28: name only (R195). -/
  | aircraftStatus (tc : BitVec 5) (name : Text)
  /-- TC 29: name only (R195). -/
  | targetStateStatus (tc : BitVec 5) (name : Text)
  /-- TC 31: name only (R195). -/
  | aircraftOperationStatus (tc : BitVec 5) (name : Text)
  /-- TC 0, 5 to 8, 30: the whole ME field, raw (R195, C3). -/
  | unknown (tc : BitVec 5) (raw : BitVec 56)
  deriving DecidableEq, Repr

/-- The frame mode (R32, R90). -/
inductive Mode where
  | short
  | extended
  deriving DecidableEq, Repr

/-- The type-specific payload of a frame record (R32). -/
inductive Payload where
  | passthrough (hex : Text)
  | mepay (m : MeVariant)
  deriving DecidableEq, Repr

/-- A frame record (R32). -/
structure FrameRecord where
  len : Nat
  mode : Mode
  df : BitVec 5
  ca : BitVec 3
  aa : Addr
  crcMatch : Bool
  crcHex : Text
  payload : Payload
  deriving DecidableEq, Repr

/-- The typed content of RESULT: one of eleven kinds (R29). -/
inductive Result where
  | none
  | bytes (b : List Byte)
  | nat (v : Nat)
  | crc (crc : BitVec 24) (emb : Option (BitVec 24)) (matched : Option Bool) (hex : Text)
  | addr (a : Addr)
  | text (s : Text)
  | sint (v : Int)
  | name (s : Text)
  | optname (o : Option Text)
  | me (m : MeVariant)
  | frame (r : FrameRecord)
  deriving DecidableEq, Repr

/-- What the outside may do between commands, other than issue a command: the host's writes and reads of R27 and the
platform's reset (R250). -/
inductive HostAction where
  /-- Write BUF[0..k) and BUF_LEN <- k (R27 (a)). -/
  | writeBuf (bs : List Byte)
  /-- Write STR[0..k) and STR_LEN <- k (R27 (b)). -/
  | writeStr (cs : Text)
  /-- Write IVAL, which sets IVAL_W (R27 (c)). -/
  | writeIval (v : BitVec 64)
  /-- Read STATUS and RESULT (R27 (e)). -/
  | readResult
  /-- Reset, asserted by the platform (R250). -/
  | reset
  deriving DecidableEq, Repr

/-- One event at the port: a command word, whose write issues the command (R27 (d), R233), or another action. -/
inductive PortEvent where
  | command (w : Word)
  | host (a : HostAction)
  deriving DecidableEq, Repr

/-- The contents of an operand buffer: (address, byte) pairs in canonical form (`Memory.wf` in Ops.lean). -/
abbrev Memory := List Host.Cell

/-- The state of the block (10_state.md section 2) and, last, the host's side of the port. -/
structure State where
  /-- BUF[0..14) (R21). -/
  buf : Memory
  /-- BUF_LEN, 0..14 (R21). -/
  bufLen : Fin (Config.bufMax + 1)
  /-- STR[0..32), each character its ASCII code (R22). -/
  str : Memory
  /-- STR_LEN, 0..32 (R22). -/
  strLen : Fin (Config.strMax + 1)
  /-- IVAL, 64-bit two's complement, as the host last wrote it (R23). -/
  ival : BitVec 64
  /-- IVAL_W: the host has written IVAL since reset (R23). -/
  ivalW : Bool
  /-- CRC_TABLE[0..256), 24 bits each (R25). -/
  crcTable : Vector (BitVec 24) 256
  /-- TBL_VALID, hidden, read by no command (R26). -/
  tblValid : Bool
  /-- STATUS (R28). -/
  status : BitVec 8
  /-- RESULT (R29). -/
  result : Result
  /-- What the host is still to do, oldest first: its sequence of host writes and commands (R27, R33). Log entry 4. -/
  port : List PortEvent
  /-- The (STATUS, RESULT) pairs the host has read, oldest first (R27 (e)). Log entry 5. -/
  hostReads : List (BitVec 8 × Result)
  deriving DecidableEq, Repr

/-- Why the machine stops with a fault. Every error of the block is a STATUS code of a next state and no fault (R64, R222). -/
inductive Fault where
  /-- Raised by ADDRI while IVAL_W = 0: `MODEL_FAULT(unwritten IVAL)`, where the spec says that the model stops (R144, R226,
  D35, I14). No hardware status. Safe. -/
  | unwrittenIval
  deriving DecidableEq, Repr

/-- Why a step is refused. -/
inductive Refusal where
  /-- Raised by exec's arm of an instruction that has no meaning yet. Safe. -/
  | notModelled (mnemonic : String)
  /-- Raised by a host write of more than BUFMAX bytes to BUF, which cannot be presented (R27 (a), D4). Safe. -/
  | bufWriteTooLong
  /-- Raised by a host write of more than STRMAX characters to STR, which cannot be presented (R27 (b), D4). Safe. -/
  | strWriteTooLong
  deriving DecidableEq, Repr

/-- The state right after reset (R35, R250). BUF, STR and IVAL hold what log entries 2 and 3 name; the port is empty
and the block idle (R251, log entries 4 and 5). -/
def State.reset : State where
  buf := []
  bufLen := 0
  str := []
  strLen := 0
  ival := 0#64
  ivalW := false
  crcTable := tableInit
  tblValid := true
  status := 0x00#8
  result := .none
  port := []
  hostReads := []

end Sys2Proof.Machine
end

