-- ==== Sys2Proof/Machine/Flags.lean ====
section
/-! DEFINITION. STATUS, the only flag register, and the two boolean outputs (R28, R30, R64). -/

namespace Sys2Proof.Machine

/-- Status code 0, OK (R64). -/
def okCode : BitVec 8 := 0x00#8

/-- The status code of an error (R64). -/
def errCode : Err → BitVec 8
  | .inputFormat => 0x01#8
  | .valueRange => 0x02#8
  | .unsupportedEncoding => 0x03#8
  | .sliceRange => 0x04#8
  | .decodeError => 0x05#8
  | .illegalCommand => 0x06#8

/-- `match` and `crc_match`: the computed CRC equals the embedded field (R30, R127). -/
def matchFlag (crc emb : BitVec 24) : Bool := crc == emb

end Sys2Proof.Machine
end

