-- ==== Sys2Proof/Machine/Ops.lean ====
section
/-! DEFINITION. The named operations over the buffers, and the ways a command ends: `complete` (R13), `raise` (R13,
R222: the one shared operation by which every error is taken; there is no trap and no return from one, R229, R230),
reset (R250), and the model fault, in which the model stops (R226). -/

namespace Sys2Proof.Machine

/-- What an address that the list does not name reads as. DESIGN CHOICE: the spec leaves buffer contents after reset
unspecified and lets no command read them (R35, I13). Log entry 2. -/
def unlistedByte : Byte := 0x00#8

/-- The byte at an address. -/
def Memory.read : Memory → Nat → Byte
  | [], _ => unlistedByte
  | (k, x) :: rest, a => if k = a then x else Memory.read rest a

/-- Put an entry in front, but for one equal to what an unlisted address reads as. -/
def Memory.entry (a : Nat) (v : Byte) (m : Memory) : Memory := if v = unlistedByte then m else (a, v) :: m

/-- Write one byte, keeping the canonical form. -/
def Memory.write : Memory → Nat → Byte → Memory
  | [], a, v => Memory.entry a v []
  | (k, x) :: rest, a, v =>
    if a < k then Memory.entry a v ((k, x) :: rest)
    else if a = k then Memory.entry a v rest
    else (k, x) :: Memory.write rest a v

/-- Write a sequence of bytes at rising addresses from `a`. -/
def Memory.writeBytes (m : Memory) (a : Nat) : List Byte → Memory
  | [] => m
  | b :: bs => Memory.writeBytes (m.write a b) (a + 1) bs

/-- The bytes at addresses `a`, `a + 1`, … in order, `n` of them. -/
def Memory.readBytes (m : Memory) (a : Nat) : Nat → List Byte
  | 0 => []
  | n + 1 => m.read a :: Memory.readBytes m (a + 1) n

/-- Canonical from an address on: addresses strictly rising from `lo`, all below `cap`, no entry equal to what an
unlisted address reads as. -/
def Memory.wfFrom (cap : Nat) : Nat → Memory → Bool
  | _, [] => true
  | lo, (k, x) :: rest => lo ≤ k && k < cap && x != unlistedByte && Memory.wfFrom cap (k + 1) rest

/-- The canonical form of a buffer of capacity `cap`. -/
def Memory.wf (cap : Nat) (m : Memory) : Bool := Memory.wfFrom cap 0 m

/-- BUF[0..k) <- bs and BUF_LEN <- k, bytes above stay (R27 (a), R105). The capacity bounds what is written. -/
def State.loadBuf (s : State) (bs : List Byte) : State :=
  { s with
    buf := s.buf.writeBytes 0 (bs.take Config.bufMax)
    bufLen := ⟨min bs.length Config.bufMax, by omega⟩ }

/-- STR[0..k) <- cs and STR_LEN <- k, characters above stay (R27 (b)). The capacity bounds what is written. -/
def State.loadStr (s : State) (cs : Text) : State :=
  { s with
    str := s.str.writeBytes 0 (cs.take Config.strMax)
    strLen := ⟨min cs.length Config.strMax, by omega⟩ }

/-- IVAL <- v and IVAL_W <- 1 (R27 (c)). -/
def State.loadIval (s : State) (v : BitVec 64) : State := { s with ival := v, ivalW := true }

/-- `complete(OK, X)`: STATUS <- 0, RESULT <- X (R13). -/
def State.complete (s : State) (x : Result) : State := { s with status := okCode, result := x }

/-- `raise E`: STATUS <- code(E), RESULT <- NONE, nothing else is written (R13, R222). -/
def State.raise (s : State) (e : Err) : State := { s with status := errCode e, result := .none }

/-- The state in which a command ends: with the result of its function, or with its error raised (R13, R182, R222). -/
def State.conclude (s : State) (r : Except Err Result) : State :=
  match r with
  | .ok x => s.complete x
  | .error e => s.raise e

/-- A command ends, whatever its function answers (R237). -/
def finish (s : State) (r : Except Err Result) : Host.Outcome State Fault Refusal := .next (s.conclude r)

/-- `MODEL_FAULT(reason)`: the model stops, in a fault that is never final and never cleared (R226). -/
def modelFault (reason : Fault) : Host.Outcome State Fault Refusal := .fault reason

/-- Reset between commands: every register to its reset value, the table built (R250, R253). The host's side of the
port is not the block's and stays. -/
def State.resetBlock (s : State) : State := { State.reset with port := s.port, hostReads := s.hostReads }

end Sys2Proof.Machine
end

