-- ==== Sys2Proof/Machine/Operands.lean ====
section
/-! DEFINITION. The operand forms: BUF[0..BUF_LEN), STR[0..STR_LEN), IVAL, the immediates, and an entry of CRC_TABLE
(R21, R22, R24, R25, R62). -/

namespace Sys2Proof.Machine

/-- BUF[0..BUF_LEN) (R21). -/
def bufOperand (s : State) : List Byte := s.buf.readBytes 0 s.bufLen.val

/-- STR[0..STR_LEN) (R22). -/
def strOperand (s : State) : Text := s.str.readBytes 0 s.strLen.val

/-- `sext_64(IVAL)` (R24). -/
def ivalOperand (s : State) : Int := s.ival.toInt

/-- An immediate, zero-extended (R62). -/
def immediate (a : BitVec 8) : Nat := a.toNat

/-- The entry of a table at an 8-bit index (R25). -/
def tableAt (t : Vector (BitVec 24) 256) (i : BitVec 8) : BitVec 24 := t[i.toNat]'i.isLt

end Sys2Proof.Machine
end

