-- ==== Sys2Proof/Machine/Crc.lean ====
section
/-! DEFINITION. The CRC-24 engine (41_crc.md): the running CRC, the check, and the commands CRCTAB, CRCGEN, CRCCHK. -/

namespace Sys2Proof.Machine

/-- One data byte of the running CRC, masked to 24 bits each step, as R123 allows (D10). -/
def crcByte (t : Vector (BitVec 24) 256) (crc : BitVec 24) (d : Byte) : BitVec 24 :=
  tableAt t ((crc >>> 16).setWidth 8 ^^^ d) ^^^ (crc <<< 8)

/-- `CRC24(d)` over a table (R123). -/
def crc24 (t : Vector (BitVec 24) 256) (d : List Byte) : BitVec 24 := d.foldl (crcByte t) 0#24

/-- `CRC_CHECK(b)` (R126, R127). -/
def crcCheck (t : Vector (BitVec 24) 256) (b : List Byte) : Except Err CrcCheck :=
  if b.length < 3 then .error .inputFormat
  else
    let emb := BitVec.ofNat 24 (beNat (b.drop (b.length - 3)))
    let c := crc24 t (b.take (b.length - 3))
    .ok { crc := c, emb := emb, matched := matchFlag c emb, hex := hexlower c.toNat }

/-- CRCTAB (R124). -/
def execCrctab (i : BitVec 8) (s : State) : Host.Outcome State Fault Refusal :=
  finish s (.ok (.nat (tableAt s.crcTable i).toNat))

/-- CRCGEN (R125). -/
def execCrcgen (s : State) : Host.Outcome State Fault Refusal :=
  let c := crc24 s.crcTable (bufOperand s)
  finish s (.ok (.crc c none none (hexlower c.toNat)))

/-- CRCCHK (R128). -/
def execCrcchk (s : State) : Host.Outcome State Fault Refusal :=
  finish s do
    let r ← crcCheck s.crcTable (bufOperand s)
    return .crc r.crc (some r.emb) (some r.matched) r.hex

end Sys2Proof.Machine
end

