-- ==== Sys2Proof/Machine/Lookup.lean ====
section
/-! DEFINITION. The wake-vortex lookup (43_lookup.md) and the command WVCAT. -/

namespace Sys2Proof.Machine

/-- `WV_NAME(tc, cat)` for tc in 2..4 and cat in 0..7: the free value of R172. -/
def wvName (tc cat : Nat) : Text := Config.wvName (Fin.ofNat 3 (tc - 2)) (Fin.ofNat 8 cat)

/-- `WV_F(tc, cat)` (R170). -/
def wvF (tc cat : Nat) : Except Err (Option Text) :=
  if cat > 7 then .error .inputFormat
  else if tc = 1 then .ok (some (ascii "reserved"))
  else if tc = 2 ∨ tc = 3 ∨ tc = 4 then .ok (some (wvName tc cat))
  else .ok none

/-- WVCAT (R171). -/
def execWvcat (tc cat : BitVec 8) (s : State) : Host.Outcome State Fault Refusal :=
  finish s do
    let r ← wvF (immediate tc) (immediate cat)
    return .optname r

end Sys2Proof.Machine
end

