-- ==== Sys2Proof/Machine/Scalar.lean ====
section
/-! DEFINITION. The scalar decode engines (42_scalar.md): UINT, ADDRB, ADDRI, ADDRS, TEXT6, ALTB, SSTAT. -/

namespace Sys2Proof.Machine

/-- `NORM_ADDR(v)` for an integer of any sign or size (R142). -/
def normAddr (v : Int) : Except Err Addr :=
  if v < 0 ∨ v > 0xFFFFFF then .error .valueRange
  else .ok { val := BitVec.ofInt 24 v, str := hexpad 6 v.toNat }

/-- The string without its optional prefix 0x or 0X (R82, R145). -/
def dropHexMark : Text → Text
  | a :: b :: rest => if a = 0x30#8 ∧ (b = 0x78#8 ∨ b = 0x58#8) then rest else a :: b :: rest
  | cs => cs

/-- `PARSE_ADDR_STR(s)` (R145). -/
def parseAddrStr (cs : Text) : Except Err Nat :=
  match dropHexMark cs with
  | [] => .error .inputFormat
  | c :: rest =>
    match hexDigits (c :: rest) with
    | some ds => .ok (digitsNat ds)
    | none => .error .inputFormat

/-- ALPHA6, the 6-bit text alphabet as ASCII codes, index 0 first (R84). -/
def alphabet : List Byte :=
  ascii "@ABCDEFGHIJKLMNO" ++ ascii "PQRSTUVWXYZ[/]^_" ++ ascii " !\"#$%&\\()*+,-./" ++ ascii "0123456789:;<=>?"

/-- `ALPHA6[i]` for i below 64 (R84). -/
def alpha6 (i : Nat) : Byte := alphabet.getD i 0x00#8

/-- The loop of TEXT6_F: take the low 6 bits, prepend, shift right, n times (R150). -/
def text6Loop : Nat → Nat → Text → Text
  | 0, _, acc => acc
  | n + 1, v, acc => text6Loop n (v >>> 6) (alpha6 (v &&& 0x3F) :: acc)

/-- `TEXT6_F(b)` (R150). -/
def text6F (b : List Byte) : Text := text6Loop (8 * b.length / 6) (beNat b) []

/-- `ALT_F(b)`, in feet (R155, R156, R157). -/
def altF (b : List Byte) : Except Err Int :=
  let v := beNat b
  if v ≥ 4096 then .error .inputFormat
  else
    let high := valBits v 11 5
    let q := valBits v 4 4
    let low := valBits v 3 0
    if q = 0 then .error .unsupportedEncoding else .ok (((high * 4 + low) * 25 : Nat) - 1000)

/-- SS_NAME, in the order of its codes (R160). -/
def ssNames : List Text :=
  [ascii "no condition", ascii "permanent alert", ascii "temporary alert", ascii "spi"]

/-- `SSTAT_F(b)` (R160). -/
def sstatF (b : List Byte) : Except Err Text :=
  match ssNames[beNat b]? with
  | some n => .ok n
  | none => .error .decodeError

/-- UINT (R141). -/
def execUint (s : State) : Host.Outcome State Fault Refusal := finish s (.ok (.nat (beNat (bufOperand s))))

/-- ADDRB (R143). -/
def execAddrb (s : State) : Host.Outcome State Fault Refusal :=
  finish s do
    let r ← normAddr (beNat (bufOperand s))
    return .addr r

/-- ADDRI: with IVAL unwritten a model fault, before anything else (R144, R226). -/
def execAddri (s : State) : Host.Outcome State Fault Refusal :=
  if s.ivalW then
    finish s do
      let r ← normAddr (ivalOperand s)
      return .addr r
  else modelFault .unwrittenIval

/-- ADDRS: the format is checked before the range (R146). -/
def execAddrs (s : State) : Host.Outcome State Fault Refusal :=
  finish s do
    let v ← parseAddrStr (strOperand s)
    let r ← normAddr v
    return .addr r

/-- TEXT6 (R151). -/
def execText6 (s : State) : Host.Outcome State Fault Refusal := finish s (.ok (.text (text6F (bufOperand s))))

/-- ALTB (R158). -/
def execAltb (s : State) : Host.Outcome State Fault Refusal :=
  finish s do
    let r ← altF (bufOperand s)
    return .sint r

/-- SSTAT (R161). -/
def execSstat (s : State) : Host.Outcome State Fault Refusal :=
  finish s do
    let r ← sstatF (bufOperand s)
    return .name r

end Sys2Proof.Machine
end

