-- ==== Sys2Proof/Machine/Slicer.lean ====
section
/-! DEFINITION. The bit slicer (40_slicer.md): SLICE_F, sequences of ranges, and the commands SLICE and SLICEB. -/

namespace Sys2Proof.Machine

/-- `SLICE_F(b, s, e)`: the minimal-byte-aligned big-endian bytes of bits s..e (R101, R102). -/
def sliceF (b : List Byte) (s e : Nat) : Except Err (List Byte) :=
  let l := 8 * b.length
  if 1 ≤ s ∧ s ≤ e ∧ e ≤ l then
    let n := e - s + 1
    let v := (beNat b >>> (l - e)) &&& ((1 <<< n) - 1)
    .ok (beBytes ((n + 7) / 8) v)
  else .error .sliceRange

/-- `FIELD(b, s, e) = BE(SLICE_F(b, s, e))`, an (e - s + 1)-bit value (R181). -/
def field (b : List Byte) (s e : Nat) : Except Err (BitVec (e - s + 1)) := do
  let r ← sliceF b s e
  return BitVec.ofNat (e - s + 1) (beNat r)

/-- An ordered sequence of ranges, each sliced independently; any invalid range fails the sequence (R106). -/
def sliceSeq (b : List Byte) : List (Nat × Nat) → Except Err (List (List Byte))
  | [] => .ok []
  | (s, e) :: rest => do
    let r ← sliceF b s e
    let rs ← sliceSeq b rest
    return r :: rs

/-- SLICE (R104). -/
def execSlice (a b : BitVec 8) (s : State) : Host.Outcome State Fault Refusal :=
  finish s do
    let r ← sliceF (bufOperand s) (immediate a) (immediate b)
    return .bytes r

/-- SLICEB: as SLICE, and BUF, BUF_LEN become the slice; on an error they keep their values (R105). -/
def execSliceb (a b : BitVec 8) (s : State) : Host.Outcome State Fault Refusal :=
  match sliceF (bufOperand s) (immediate a) (immediate b) with
  | .ok r => .next ((s.loadBuf r).complete (.bytes r))
  | .error e => .next (s.raise e)

end Sys2Proof.Machine
end

