-- ==== Sys2Proof/Machine/Mux.lean ====
section
/-! DEFINITION. The dispatch multiplexer (44_dispatch.md): the ME, squitter and frame functions, frame strings, and
the commands NOP, DECME, DECFR, DECFRS. An error of a function called is returned at once (R182). -/

namespace Sys2Proof.Machine

/-- Identification, TC 1 to 4 (R97, R191, R192). WV_F answers a name for these TC (R192), so the default is never taken. -/
def identF (tc : BitVec 5) (me : List Byte) : Except Err MeVariant := do
  let cat : BitVec 3 ← field me 6 8
  let cs ← sliceF me 9 56
  let wv ← wvF tc.toNat cat.toNat
  return .ident tc cat (text6F cs) (wv.getD [])

/-- Airborne position, TC 9 to 18 (barometric) and 20 to 22 (GNSS) (R98, R191, R193). -/
def positionF (tc : BitVec 5) (me : List Byte) : Except Err MeVariant := do
  let ssBits ← sliceF me 6 7
  let ss ← sstatF ssBits
  let saf : BitVec 1 ← field me 8 8
  let a ← sliceF me 9 20
  let t : BitVec 1 ← field me 21 21
  let f : BitVec 1 ← field me 22 22
  let lat : BitVec 17 ← field me 23 39
  let lon : BitVec 17 ← field me 40 56
  if tc.toNat ≤ 18 then
    let alt ← altF a
    return .posBaro tc ss saf alt t f lat lon
  else return .posGnss tc ss saf (BitVec.ofNat 12 (beNat a)) t f lat lon

/-- Airborne velocity, TC 19: every field its raw value (R99, R191, R194). -/
def velocityF (tc : BitVec 5) (me : List Byte) : Except Err MeVariant := do
  let st : BitVec 3 ← field me 6 8
  let ic : BitVec 1 ← field me 9 9
  let ifr : BitVec 1 ← field me 10 10
  let nuc : BitVec 3 ← field me 11 13
  let velRaw : BitVec 22 ← field me 14 35
  let vrSrc : BitVec 1 ← field me 36 36
  let sVr : BitVec 1 ← field me 37 37
  let vr : BitVec 9 ← field me 38 46
  let rsv : BitVec 2 ← field me 47 48
  let sDif : BitVec 1 ← field me 49 49
  let dif : BitVec 7 ← field me 50 56
  return .velocity tc st ic ifr nuc velRaw vrSrc sVr vr rsv sDif dif

/-- The TC map of R95 for an ME field whose TC is read (R191). -/
def meByTc (tc : BitVec 5) (me : List Byte) : Except Err MeVariant :=
  let n := tc.toNat
  if 1 ≤ n ∧ n ≤ 4 then identF tc me
  else if (9 ≤ n ∧ n ≤ 18) ∨ (20 ≤ n ∧ n ≤ 22) then positionF tc me
  else if n = 19 then velocityF tc me
  else if 23 ≤ n ∧ n ≤ 27 then .ok (.reserved tc (ascii "reserved"))
  else if n = 28 then .ok (.aircraftStatus tc (ascii "aircraft status"))
  else if n = 29 then .ok (.targetStateStatus tc (ascii "target state/status"))
  else if n = 31 then .ok (.aircraftOperationStatus tc (ascii "aircraft operation status"))
  else .ok (.unknown tc (BitVec.ofNat 56 (beNat me)))

/-- `ME_F(me)` for a 7-byte ME field (R191). -/
def meF (me : List Byte) : Except Err MeVariant := do
  let tc : BitVec 5 ← field me 1 5
  meByTc tc me

/-- `PASS_F(d)`: lowercase hex, two digits per byte (R196). -/
def passF (d : List Byte) : Payload := .passthrough (hexpad (2 * d.length) (beNat d))

/-- `SQ_F(mode, df, d)` (R197, R198). -/
def sqF (mode : Mode) (df : BitVec 5) (d : List Byte) : Except Err Payload :=
  match mode with
  | .short => .ok (passF d)
  | .extended =>
    if df.toNat = 17 then do
      let m ← meF d
      return .mepay m
    else .ok (passF d)

/-- The frame record of a frame of a given mode whose data field ends at bit `last` (R91, R92, R199). -/
def frameOf (t : Vector (BitVec 24) 256) (mode : Mode) (last : Nat) (b : List Byte) : Except Err FrameRecord := do
  let c ← crcCheck t b
  let df : BitVec 5 ← field b 1 5
  let ca : BitVec 3 ← field b 6 8
  let aaBits : BitVec 24 ← field b 9 32
  let aa ← normAddr aaBits.toNat
  let d ← sliceF b 33 last
  let p ← sqF mode df d
  return { len := b.length, mode := mode, df := df, ca := ca, aa := aa, crcMatch := c.matched, crcHex := c.hex, payload := p }

/-- `FRAME_F(b)`: the length alone selects the layout (R90, R199). -/
def frameF (t : Vector (BitVec 24) 256) (b : List Byte) : Except Err FrameRecord :=
  if b.length = 7 then frameOf t .short 56 b
  else if b.length = 14 then frameOf t .extended 88 b
  else .error .inputFormat

/-- `PARSE_FRAME_STR(s)` (R81, R201). -/
def parseFrameStr (cs : Text) : Except Err (List Byte) :=
  if cs.length % 2 = 1 then .error .inputFormat
  else
    match hexDigits cs with
    | some ds => .ok (pairBytes ds)
    | none => .error .inputFormat

/-- NOP (R180). -/
def execNop (s : State) : Host.Outcome State Fault Refusal := finish s (.ok .none)

/-- DECME (R190). -/
def execDecme (s : State) : Host.Outcome State Fault Refusal :=
  finish s (if s.bufLen.val ≠ 7 then .error .inputFormat
    else do
      let m ← meF (bufOperand s)
      return .me m)

/-- DECFR (R200). -/
def execDecfr (s : State) : Host.Outcome State Fault Refusal :=
  finish s do
    let r ← frameF s.crcTable (bufOperand s)
    return .frame r

/-- DECFRS: string format, then length, then as DECFR; BUF is not written (R202, R224). -/
def execDecfrs (s : State) : Host.Outcome State Fault Refusal :=
  finish s do
    let b ← parseFrameStr (strOperand s)
    let r ← frameF s.crcTable b
    return .frame r

end Sys2Proof.Machine
end

