-- ==== Sys2Proof/Syntax.lean ====
section
/-! DEFINITION. The 17 commands of spec/opcode_table.json (R63), with the immediates each takes (R62). -/

namespace Sys2Proof

/-- A command. Its operands are the 8-bit immediates A and B (R62); every other operand is an operand register. -/
inductive Instr where
  /-- NOP, no operation (R180). -/
  | nop
  /-- SLICE s, e: extract bits s..e of BUF into RESULT (R104). -/
  | slice (s e : BitVec 8)
  /-- SLICEB s, e: extract bits s..e of BUF into RESULT and BUF (R105). -/
  | sliceb (s e : BitVec 8)
  /-- CRCTAB i: read CRC_TABLE[i] (R124). -/
  | crctab (i : BitVec 8)
  /-- CRCGEN: CRC-24 of all of BUF (R125). -/
  | crcgen
  /-- CRCCHK: check the trailing CRC field of BUF (R128). -/
  | crcchk
  /-- UINT: big-endian unsigned integer of BUF (R141). -/
  | uint
  /-- ADDRB: 24-bit address from BUF (R143). -/
  | addrb
  /-- ADDRI: 24-bit address from IVAL (R144). -/
  | addri
  /-- ADDRS: 24-bit address from the hex string STR (R146). -/
  | addrs
  /-- TEXT6: 6-bit packed text of BUF (R151). -/
  | text6
  /-- ALTB: barometric altitude of the 12-bit field in BUF (R158). -/
  | altb
  /-- SSTAT: surveillance status of the 2-bit field in BUF (R161). -/
  | sstat
  /-- WVCAT tc, cat: wake-vortex category name (R171). -/
  | wvcat (tc cat : BitVec 8)
  /-- DECME: decode the 56-bit ME field in BUF (R190). -/
  | decme
  /-- DECFR: decode the frame in BUF (R200). -/
  | decfr
  /-- DECFRS: decode the frame given as a hex string in STR (R202). -/
  | decfrs
  deriving DecidableEq, Repr

end Sys2Proof
end

