-- ==== Sys2Proof/Machine/Dispatch.lean ====
section
/-! DEFINITION. One arm per command, each a direct call of its meaning. -/

namespace Sys2Proof.Machine

def exec (i : Instr) (s : State) : Host.Outcome State Fault Refusal :=
  match i with
  | .nop => Sys2Proof.Machine.execNop s
  | .slice a b => Sys2Proof.Machine.execSlice a b s
  | .sliceb a b => Sys2Proof.Machine.execSliceb a b s
  | .crctab k => Sys2Proof.Machine.execCrctab k s
  | .crcgen => Sys2Proof.Machine.execCrcgen s
  | .crcchk => Sys2Proof.Machine.execCrcchk s
  | .uint => Sys2Proof.Machine.execUint s
  | .addrb => Sys2Proof.Machine.execAddrb s
  | .addri => Sys2Proof.Machine.execAddri s
  | .addrs => Sys2Proof.Machine.execAddrs s
  | .text6 => Sys2Proof.Machine.execText6 s
  | .altb => Sys2Proof.Machine.execAltb s
  | .sstat => Sys2Proof.Machine.execSstat s
  | .wvcat tc cat => Sys2Proof.Machine.execWvcat tc cat s
  | .decme => Sys2Proof.Machine.execDecme s
  | .decfr => Sys2Proof.Machine.execDecfr s
  | .decfrs => Sys2Proof.Machine.execDecfrs s

end Sys2Proof.Machine
end

