-- ==== Sys2Proof/Machine/Fields.lean ====
section
/-! DEFINITION. The four fields of a command word (R60). -/

namespace Sys2Proof

/-- OP = cmd[7:0] (R60). -/
def opField (w : Word) : BitVec 8 := w.extractLsb' 0 8

/-- A = cmd[15:8] (R60). -/
def aField (w : Word) : BitVec 8 := w.extractLsb' 8 8

/-- B = cmd[23:16] (R60). -/
def bField (w : Word) : BitVec 8 := w.extractLsb' 16 8

/-- C = cmd[31:24] (R60). -/
def cField (w : Word) : BitVec 8 := w.extractLsb' 24 8

end Sys2Proof
end

