-- ==== Sys2Proof/WellFormed.lean ====
section
/-! DEFINITION. Which command words are legal (R61, R62, R65), as three checks. Every term of `Instr` is well formed,
since its operands are the 8-bit immediates themselves, so the checks are about words. -/

namespace Sys2Proof

/-- C must be 0 (R61). -/
def legalC (w : Word) : Bool := cField w == 0#8

/-- OP is one of the listed values, written as the complement of the reserved ranges of R65. -/
def legalOp (w : Word) : Bool :=
  let op := (opField w).toNat
  !((0x03 ≤ op && op ≤ 0x07) || (0x0B ≤ op && op ≤ 0x0F) || op == 0x17 || (0x19 ≤ op && op ≤ 0x1F)
    || (0x21 ≤ op && op ≤ 0x2F) || 0x32 ≤ op)

/-- The immediates the table of R62 requires to be 0 are 0: SLICE, SLICEB and WVCAT take A and B, CRCTAB takes A,
every other command takes none. -/
def legalImm (w : Word) : Bool :=
  let op := (opField w).toNat
  if op == 0x01 || op == 0x02 || op == 0x18 then true
  else if op == 0x08 then bField w == 0#8
  else aField w == 0#8 && bField w == 0#8

/-- A legal command word (R65). -/
def legalWord (w : Word) : Bool := legalC w && legalOp w && legalImm w

end Sys2Proof
end

