-- ==== Sys2Proof/Decode.lean ====
section
/-! DEFINITION. The decoder of R66, total on every command word and rejecting by name, and the encoder of R63 and R67. -/

namespace Sys2Proof

/-- Why a command word is illegal (R65); each makes the block end the command with ILLEGAL_COMMAND. -/
inductive Illegal where
  /-- C is not 0 (R61). -/
  | reservedC
  /-- OP is not in the table of R63. -/
  | reservedOp (op : BitVec 8)
  /-- An immediate that R62 requires to be 0 is not. -/
  | immediateNotZero
  deriving DecidableEq, Repr

/-- A command that takes no immediate (R62): A and B must be 0. -/
def noImmediate (a b : BitVec 8) (i : Instr) : Except Illegal Instr :=
  if a = 0#8 ∧ b = 0#8 then .ok i else .error .immediateNotZero

/-- A command that takes only A (R62): B must be 0. -/
def onlyA (b : BitVec 8) (i : Instr) : Except Illegal Instr :=
  if b = 0#8 then .ok i else .error .immediateNotZero

/-- The command of an OP value with immediates a, b (R63, R66). -/
def decodeOp (op a b : BitVec 8) : Except Illegal Instr :=
  match op.toNat with
  | 0x00 => noImmediate a b .nop
  | 0x01 => .ok (.slice a b)
  | 0x02 => .ok (.sliceb a b)
  | 0x08 => onlyA b (.crctab a)
  | 0x09 => noImmediate a b .crcgen
  | 0x0A => noImmediate a b .crcchk
  | 0x10 => noImmediate a b .uint
  | 0x11 => noImmediate a b .addrb
  | 0x12 => noImmediate a b .addri
  | 0x13 => noImmediate a b .addrs
  | 0x14 => noImmediate a b .text6
  | 0x15 => noImmediate a b .altb
  | 0x16 => noImmediate a b .sstat
  | 0x18 => .ok (.wvcat a b)
  | 0x20 => noImmediate a b .decme
  | 0x30 => noImmediate a b .decfr
  | 0x31 => noImmediate a b .decfrs
  | _ => .error (.reservedOp op)

/-- Decoding a command word: C first, then OP, then the immediates (R66). -/
def decode (w : Word) : Except Illegal Instr :=
  if cField w ≠ 0#8 then .error .reservedC else decodeOp (opField w) (aField w) (bField w)

/-- The OP value of a command (R63). -/
def opcode : Instr → BitVec 8
  | .nop => 0x00#8
  | .slice _ _ => 0x01#8
  | .sliceb _ _ => 0x02#8
  | .crctab _ => 0x08#8
  | .crcgen => 0x09#8
  | .crcchk => 0x0A#8
  | .uint => 0x10#8
  | .addrb => 0x11#8
  | .addri => 0x12#8
  | .addrs => 0x13#8
  | .text6 => 0x14#8
  | .altb => 0x15#8
  | .sstat => 0x16#8
  | .wvcat _ _ => 0x18#8
  | .decme => 0x20#8
  | .decfr => 0x30#8
  | .decfrs => 0x31#8

/-- Immediate A of a command, 0 where it takes none (R62). -/
def immA : Instr → BitVec 8
  | .slice s _ => s
  | .sliceb s _ => s
  | .crctab i => i
  | .wvcat tc _ => tc
  | .nop | .crcgen | .crcchk | .uint | .addrb | .addri | .addrs | .text6 | .altb | .sstat | .decme | .decfr | .decfrs => 0#8

/-- Immediate B of a command, 0 where it takes none (R62). -/
def immB : Instr → BitVec 8
  | .slice _ e => e
  | .sliceb _ e => e
  | .wvcat _ cat => cat
  | .nop | .crctab _ | .crcgen | .crcchk | .uint | .addrb | .addri | .addrs | .text6 | .altb | .sstat | .decme | .decfr
  | .decfrs => 0#8

/-- The word with the given fields and C = 0: `(b << 16) | (a << 8) | OP` (R67). -/
def wordOf (op a b : BitVec 8) : Word :=
  (b.setWidth 32 <<< 16) ||| (a.setWidth 32 <<< 8) ||| op.setWidth 32

/-- The command word of a command (R63, R67). -/
def encode (i : Instr) : Word := wordOf (opcode i) (immA i) (immB i)

/-- The instruction the decoder reads from the `nbits` low bits of `w`, every higher bit 0: the table numbers a
command's bits as the command word does, 31 to 0 (R60). -/
def decodeTableWord (nbits w : Nat) : Option Instr :=
  match decode (BitVec.ofNat 32 (w % 2 ^ nbits)) with
  | .ok i => some i
  | .error _ => none

end Sys2Proof
end

