-- ==== Sys2Proof/Machine/Port.lean ====
section
/-! DEFINITION. The host port (R27, R233): which event comes next, what each host action does, and how a command word
is placed at the port. -/

namespace Sys2Proof.Machine

/-- What the block finds at its port. -/
inductive Fetched where
  /-- Nothing: the block is idle (R236, R251). -/
  | idle
  /-- A legal command, and the state with its word taken from the port. -/
  | run (i : Instr) (s : State)
  /-- An illegal command word, and the state with it taken from the port (R65). -/
  | illegal (s : State)
  /-- A host action that is no command, and the state with it taken from the port. -/
  | act (a : HostAction) (s : State)
  deriving DecidableEq, Repr

/-- The state with the pending actions replaced. -/
def State.withPort (s : State) (p : List PortEvent) : State := { s with port := p }

/-- Decode a command word taken from the port (R66). -/
def fetchWord (w : Word) (s : State) : Fetched :=
  match decode w with
  | .ok i => .run i s
  | .error _ => .illegal s

/-- Take the next event from the port, in issue order (R50). -/
def fetch (s : State) : Fetched :=
  match s.port with
  | [] => .idle
  | .command w :: rest => fetchWord w (s.withPort rest)
  | .host a :: rest => .act a (s.withPort rest)

/-- An illegal command ends with ILLEGAL_COMMAND (R61, R65). -/
def runIllegal (s : State) : Host.Outcome State Fault Refusal := .next (s.raise .illegalCommand)

/-- An idle block keeps every register (R236, R251). -/
def runIdle (s : State) : Host.Outcome State Fault Refusal := .next s

/-- A host action that is no command (R27, R250). A write longer than its buffer cannot be presented (R27, D4). A read
delivers STATUS and RESULT to the host and changes no register (R47). -/
def runAction (a : HostAction) (s : State) : Host.Outcome State Fault Refusal :=
  match a with
  | .writeBuf bs => if bs.length ≤ Config.bufMax then .next (s.loadBuf bs) else .refused .bufWriteTooLong
  | .writeStr cs => if cs.length ≤ Config.strMax then .next (s.loadStr cs) else .refused .strWriteTooLong
  | .writeIval v => .next (s.loadIval v)
  | .readResult => .next { s with hostReads := s.hostReads ++ [(s.status, s.result)] }
  | .reset => .next s.resetBlock

/-- A command word placed as the host's next action. -/
def State.issue (s : State) (w : Word) : State := s.withPort (.command w :: s.port)

end Sys2Proof.Machine
end

