-- ==== Sys2Proof/Machine/Step.lean ====
section
/-! DEFINITION. One step: the block takes the next event from its port and does it, atomically (R44, R50). -/

namespace Sys2Proof.Machine

/-- One step of the block and its port. -/
def step (s : State) : Host.Outcome State Fault Refusal :=
  match fetch s with
  | .idle => runIdle s
  | .run i s' => exec i s'
  | .illegal s' => runIllegal s'
  | .act a s' => runAction a s'

/-- The state with the command word of `nbits` low bits `w`, every higher bit 0, as the host's next action: the block
fetches no instructions, it takes them from the port (R54). Log entry 4. -/
def State.withFetchWord (s : State) (nbits w : Nat) : State := s.issue (BitVec.ofNat 32 (w % 2 ^ nbits))

end Sys2Proof.Machine
end

