-- ==== Sys2Proof/Machine/Assembler.lean ====
section
/-! DEFINITION. The assembler syntax, the host directives and the pseudo-instructions (R67, R68, R69): a source line
becomes the port events it stands for. -/

namespace Sys2Proof.Machine

/-- The characters before the first `;`, which starts a comment (R67). -/
def dropComment (cs : List Char) : List Char := cs.takeWhile fun c => c != ';'

/-- The words of a line: spaces and tabs separate them. -/
def wordsLoop : List Char → List Char → List (List Char)
  | [], [] => []
  | [], cur => [cur.reverse]
  | c :: cs, cur =>
    if c = ' ' ∨ c = '\t' then
      match cur with
      | [] => wordsLoop cs []
      | _ :: _ => cur.reverse :: wordsLoop cs []
    else wordsLoop cs (c :: cur)

/-- The pieces of a list: one separator between two of them, a comma between operands (R67), a semicolon between the
ranges of SLICEM (R69). -/
def splitLoop (sep : Char) : List Char → List Char → List (List Char)
  | [], cur => [cur.reverse]
  | c :: cs, cur => if c = sep then cur.reverse :: splitLoop sep cs [] else splitLoop sep cs (c :: cur)

/-- Words as one list of characters again, a space after each. -/
def joinWords (ws : List (List Char)) : List Char := (ws.map fun w => w ++ [' ']).flatten

/-- Decimal digits as a number. -/
def decDigits : List Char → Nat → Option Nat
  | [], acc => some acc
  | c :: cs, acc => if '0' ≤ c ∧ c ≤ '9' then decDigits cs (acc * 10 + (c.toNat - 48)) else none

/-- A number: decimal or 0x hexadecimal (R67). -/
def parseNumber : List Char → Option Nat
  | [] => none
  | '0' :: 'x' :: c :: cs => (hexDigits ((c :: cs).map fun d => BitVec.ofNat 8 d.toNat)).map digitsNat
  | c :: cs => decDigits (c :: cs) 0

/-- A signed number, for `.ival` (R68). -/
def parseSigned : List Char → Option Int
  | '-' :: cs => (parseNumber cs).map fun n => -(n : Int)
  | cs => (parseNumber cs).map fun n => (n : Int)

/-- An operand of a command: a number that fits the 8-bit immediate (R62, R67). -/
def parseImmediate (cs : List Char) : Option (BitVec 8) :=
  match parseNumber cs with
  | some n => if n < 256 then some (BitVec.ofNat 8 n) else none
  | none => none

/-- The command of a mnemonic and its immediates (R62, R67). -/
def instrNamed (m : List Char) (ops : List (BitVec 8)) : Option Instr :=
  match ops with
  | [] =>
    if m = "NOP".toList then some .nop
    else if m = "CRCGEN".toList then some .crcgen
    else if m = "CRCCHK".toList then some .crcchk
    else if m = "UINT".toList ∨ m = "ALTG".toList then some .uint
    else if m = "ADDRB".toList then some .addrb
    else if m = "ADDRI".toList then some .addri
    else if m = "ADDRS".toList then some .addrs
    else if m = "TEXT6".toList then some .text6
    else if m = "ALTB".toList then some .altb
    else if m = "SSTAT".toList then some .sstat
    else if m = "DECME".toList then some .decme
    else if m = "DECFR".toList then some .decfr
    else if m = "DECFRS".toList then some .decfrs
    else none
  | [a] => if m = "CRCTAB".toList then some (.crctab a) else none
  | [a, b] =>
    if m = "SLICE".toList then some (.slice a b)
    else if m = "SLICEB".toList then some (.sliceb a b)
    else if m = "WVCAT".toList then some (.wvcat a b)
    else none
  | _ => none

/-- All of a list's images, none if one has none. -/
def allSome (f : List Char → Option α) : List (List Char) → Option (List α)
  | [] => some []
  | x :: xs =>
    match f x, allSome f xs with
    | some y, some ys => some (y :: ys)
    | _, _ => none

/-- A byte of `.buf`: two hexadecimal digits (R68). -/
def parseByte (cs : List Char) : Option Byte :=
  match hexDigits (cs.map fun d => BitVec.ofNat 8 d.toNat) with
  | some [hi, lo] => some (BitVec.ofNat 8 (16 * hi + lo))
  | _ => none

/-- The characters of `.str` between its first two double quotes (R68). DESIGN CHOICE: R67 and R68 do not say whether a `;` on
such a line starts a comment. It does not, neither between the quotes, where it is a character of the string, nor before
the first; what stands before the first quote, after the mnemonic, and after the second is not read. Log entry 11. -/
def quoted (cs : List Char) : Option Text :=
  match cs.dropWhile fun c => c.toNat != 34 with
  | [] => none
  | _ :: rest =>
    if rest.any fun c => c.toNat == 34 then
      some ((rest.takeWhile fun c => c.toNat != 34).map fun c => BitVec.ofNat 8 c.toNat)
    else none

/-- An operand between commas: exactly one word, a number that fits (R67). -/
def parseOperand (piece : List Char) : Option (BitVec 8) :=
  match wordsLoop piece [] with
  | [w] => parseImmediate w
  | _ => none

/-- One command line: the mnemonic and the words after it (R67). -/
def assembleCommand (m : List Char) (rest : List (List Char)) : Option (List PortEvent) :=
  let ops := match rest with
    | [] => some []
    | _ :: _ => allSome parseOperand (splitLoop ',' (joinWords rest) [])
  match ops with
  | some xs => (instrNamed m xs).map fun i => [.command (encode i)]
  | none => none

/-- The pseudo-instruction SLICEM: a SLICE for each range, the host reading RESULT after each (R69, R106). -/
def slicem : List (BitVec 8 × BitVec 8) → List PortEvent
  | [] => []
  | (s, e) :: rest => .command (encode (.slice s e)) :: .host .readResult :: slicem rest

/-- One range of SLICEM: two operands (R69). -/
def parseRange (piece : List Char) : Option (BitVec 8 × BitVec 8) :=
  match allSome parseOperand (splitLoop ',' piece []) with
  | some [s, e] => some (s, e)
  | _ => none

/-- A SLICEM line from the words after the mnemonic. Its `;` separates ranges and starts no comment. DEDUCED: R67 and R69
give `;` two meanings. Log entry 10. -/
def assembleSlicem (rest : List (List Char)) : Option (List PortEvent) :=
  (allSome parseRange (splitLoop ';' (joinWords rest) [])).map slicem

/-- One line of characters: the events it stands for, none where it is no line of R67 or R68. Where `;` starts a comment is
settled here: on every line (R67) but one of `.str` (DESIGN CHOICE, log entry 11) and one of SLICEM (DEDUCED, log entry
10). -/
def assembleChars (line : List Char) : Option (List PortEvent) :=
  match wordsLoop line [] with
  | [] => some []
  | d :: _ =>
    if d = ".str".toList then
      match quoted line with
      | some cs => if cs.length ≤ Config.strMax then some [.host (.writeStr cs)] else none
      | none => none
    else if d = "SLICEM".toList then assembleSlicem (wordsLoop line []).tail
    else
      match wordsLoop (dropComment line) [] with
      | [] => some []
      | m :: rest =>
        if m = ".buf".toList then
          match allSome parseByte rest with
          | some bs => if bs.length ≤ Config.bufMax then some [.host (.writeBuf bs)] else none
          | none => none
        else if m = ".ival".toList then
          match rest with
          | [n] =>
            match parseSigned n with
            | some v => if -2 ^ 63 ≤ v ∧ v < 2 ^ 63 then some [.host (.writeIval (BitVec.ofInt 64 v))] else none
            | none => none
          | _ => none
        else assembleCommand m rest

/-- One source line of ASCII characters (R14, R67, R68). A blank line or a comment stands for no event. -/
def assembleLine (line : String) : Option (List PortEvent) :=
  if line.toList.all fun c => c.toNat < 128 then assembleChars line.toList else none

/-- The events of a source text, line by line in order; none if a line is none. -/
def assemble : List String → Option (List PortEvent)
  | [] => some []
  | l :: ls =>
    match assembleLine l, assemble ls with
    | some a, some b => some (a ++ b)
    | _, _ => none

end Sys2Proof.Machine
end

