-- ==== Sys2Proof/Machine/Tags.lean ====
section
/-! DEFINITION. Mode strings and the numeric tags of a port that carries variants as codes (R32, R96). -/

namespace Sys2Proof.Machine

/-- The frame mode's name (R32). -/
def modeName : Mode → Text
  | .short => ascii "short"
  | .extended => ascii "extended"

/-- The frame mode's code (R96). -/
def modeTag : Mode → Nat
  | .short => 0
  | .extended => 1

/-- The payload's code (R96). -/
def payloadTag : Payload → Nat
  | .passthrough _ => 0
  | .mepay _ => 1

/-- The ME variant's code (R96). -/
def meTag : MeVariant → Nat
  | .ident .. => 0
  | .posBaro .. => 1
  | .velocity .. => 2
  | .posGnss .. => 3
  | .reserved .. => 4
  | .aircraftStatus .. => 5
  | .targetStateStatus .. => 6
  | .aircraftOperationStatus .. => 7
  | .unknown .. => 8

/-- The type code an ME variant carries (R31). -/
def meTc : MeVariant → BitVec 5
  | .ident tc .. => tc
  | .posBaro tc .. => tc
  | .velocity tc .. => tc
  | .posGnss tc .. => tc
  | .reserved tc _ => tc
  | .aircraftStatus tc _ => tc
  | .targetStateStatus tc _ => tc
  | .aircraftOperationStatus tc _ => tc
  | .unknown tc _ => tc

/-- The variant code the TC map of R95 assigns to a type code. -/
def tcTag (tc : Nat) : Nat :=
  if 1 ≤ tc ∧ tc ≤ 4 then 0
  else if 9 ≤ tc ∧ tc ≤ 18 then 1
  else if tc = 19 then 2
  else if 20 ≤ tc ∧ tc ≤ 22 then 3
  else if 23 ≤ tc ∧ tc ≤ 27 then 4
  else if tc = 28 then 5
  else if tc = 29 then 6
  else if tc = 31 then 7
  else 8

end Sys2Proof.Machine
end

