-- ==== Sys2Proof/Safety.lean ====
section
/-! DEFINITION. What a good state of T2G-DEC is: the ranges and relations the spec gives its registers and result
kinds, as decidable checks, and the invariant they make up. -/

namespace Sys2Proof.Safety

open Sys2Proof.Machine

/-- A string over the lowercase hexadecimal digits (R83). -/
def lowerHex (t : Text) : Bool :=
  t.all fun c => (0x30 ≤ c.toNat && c.toNat ≤ 0x39) || (0x61 ≤ c.toNat && c.toNat ≤ 0x66)

/-- A string over the 6-bit alphabet (R29, R84). -/
def overAlphabet (t : Text) : Bool := t.all fun c => alphabet.contains c

/-- A barometric altitude that ALT_F can give: -1000 to 12075 feet in steps of 25 (R159). -/
def altitudeOk (v : Int) : Bool := decide (-1000 ≤ v) && decide (v ≤ 12075) && v % 25 == 0

/-- An ADDR result: the string is the value in exactly 6 digits (R29, R83). -/
def addrOk (a : Addr) : Bool := a.str == hexpad 6 a.val.toNat

/-- An ME variant: its type code is one of its row in R95, and its strings are those of R31, R160, R192 and R195; the
raw value of an unknown variant begins with its type code (R95, R195). -/
def meOk : MeVariant → Bool
  | .ident tc cat cs wv =>
    decide (1 ≤ tc.toNat) && decide (tc.toNat ≤ 4) && cs.length == 8 && overAlphabet cs
      && decide (wv = if tc.toNat = 1 then ascii "reserved" else wvName tc.toNat cat.toNat)
  | .posBaro tc ss _ alt _ _ _ _ => decide (9 ≤ tc.toNat) && decide (tc.toNat ≤ 18) && ssNames.contains ss && altitudeOk alt
  | .velocity tc _ _ _ _ _ _ _ _ _ _ _ => tc.toNat == 19
  | .posGnss tc ss _ _ _ _ _ _ => decide (20 ≤ tc.toNat) && decide (tc.toNat ≤ 22) && ssNames.contains ss
  | .reserved tc name => decide (23 ≤ tc.toNat) && decide (tc.toNat ≤ 27) && name == ascii "reserved"
  | .aircraftStatus tc name => tc.toNat == 28 && name == ascii "aircraft status"
  | .targetStateStatus tc name => tc.toNat == 29 && name == ascii "target state/status"
  | .aircraftOperationStatus tc name => tc.toNat == 31 && name == ascii "aircraft operation status"
  | .unknown tc raw =>
    (tc.toNat == 0 || (decide (5 ≤ tc.toNat) && decide (tc.toNat ≤ 8)) || tc.toNat == 30) && raw.toNat / 2 ^ 51 == tc.toNat

/-- A payload: ME only in an extended DF 17 frame, otherwise 6 or 14 lowercase hex digits (R196, R198). -/
def payloadOk (mode : Mode) (df : BitVec 5) : Payload → Bool
  | .passthrough h => lowerHex h && (match mode with
      | .short => h.length == 6
      | .extended => h.length == 14 && df.toNat != 17)
  | .mepay m => mode == .extended && df.toNat == 17 && meOk m

/-- A frame record: the length selects the mode (R32, R90). -/
def frameOk (r : FrameRecord) : Bool :=
  (match r.mode with
    | .short => r.len == 7
    | .extended => r.len == 14)
  && addrOk r.aa && lowerHex r.crcHex && decide (1 ≤ r.crcHex.length) && decide (r.crcHex.length ≤ 6)
  && payloadOk r.mode r.df r.payload

/-- The contents each kind of RESULT can have (R29). -/
def resultOk : Result → Bool
  | .none => true
  | .bytes b => decide (1 ≤ b.length) && decide (b.length ≤ Config.bufMax)
  | .nat v => decide (v < 2 ^ 112)
  | .crc c emb m hex => m == (emb.map fun e => matchFlag c e) && hex == hexlower c.toNat
  | .addr a => addrOk a
  | .text t => overAlphabet t && decide (t.length ≤ 18)
  | .sint v => altitudeOk v
  | .name s => ssNames.contains s
  | .optname _ => true
  | .me m => meOk m
  | .frame r => frameOk r

/-- STATUS holds a code of R64, and RESULT is NONE while STATUS is an error (R64, R222, I12). -/
def statusOk (st : BitVec 8) (r : Result) : Bool := decide (st.toNat ≤ 6) && (st == okCode || r == .none)

/-- The invariant of the block: the buffers keep their canonical form, CRC_TABLE is the table reset built (R25, R55),
TBL_VALID is set (R26), STATUS and RESULT are as R29 and R64 allow. -/
def GoodState (s : State) : Prop :=
  Memory.wf Config.bufMax s.buf = true ∧ Memory.wf Config.strMax s.str = true ∧ s.crcTable = tableInit
    ∧ s.tblValid = true ∧ statusOk s.status s.result = true ∧ resultOk s.result = true

/-- The event at the port can be presented: a host write fits its buffer (R27, D4). -/
def eventFits : PortEvent → Bool
  | .host (.writeBuf bs) => decide (bs.length ≤ Config.bufMax)
  | .host (.writeStr cs) => decide (cs.length ≤ Config.strMax)
  | .host (.writeIval _) => true
  | .host .readResult => true
  | .host .reset => true
  | .command _ => true

/-- The command of an event needs no operand the host has not written: an ADDRI comes after a write of IVAL (R144, R254). -/
def eventReady (ivalW : Bool) : PortEvent → Bool
  | .command w => ivalW || decode w != .ok .addri
  | .host _ => true

/-- An extended DF 17 frame with a barometric position whose Q is 0 (R182, R221). -/
def grayFrame (b : List Byte) : Prop :=
  b.length = 14 ∧ beNat b / 2 ^ 107 = 17 ∧ 9 ≤ beNat b / 2 ^ 75 % 2 ^ 5 ∧ beNat b / 2 ^ 75 % 2 ^ 5 ≤ 18
    ∧ beNat b / 2 ^ 64 % 2 = 0

end Sys2Proof.Safety
end

