-- ==== Sys2Proof/Certificates/Slice0/Obligations.lean ====
section
/-! DEFINITION. What is claimed of the model, for the provers. Each statement names the rule or section of spec/ it
formalises. `ended s c r` is the state in which a command that started in s ends: only STATUS and RESULT differ, so a
statement `exec i s = .next (ended s c r)` is at once the result of the command, its completion and its frame. -/

namespace Sys2Proof.Claims

open Sys2Proof.Machine Sys2Proof.Safety

/-- The state a command ends in that writes STATUS and RESULT and nothing else. -/
def ended (s : State) (code : BitVec 8) (r : Result) : State := { s with status := code, result := r }

/-- The word `w` runs `i`, and every other word with its OP is illegal: STATUS 6, RESULT NONE (R62, R65). -/
def SoleWord (i : Instr) (w : Word) : Prop :=
  (∀ s, step (s.issue w) = exec i s)
    ∧ ∀ v s, opField v = opField w → v ≠ w → step (s.issue v) = .next (ended s 0x06#8 .none)

/-- The word of a command with two immediates, `(b << 16) | (a << 8) | OP`, runs it; with C not 0 it is illegal. -/
def TwoImmediateWord (op : BitVec 8) (i : BitVec 8 → BitVec 8 → Instr) : Prop :=
  (∀ a b s, step (s.issue ((b.setWidth 32 <<< 16) ||| (a.setWidth 32 <<< 8) ||| op.setWidth 32)) = exec (i a b) s)
    ∧ ∀ v s, opField v = op → cField v ≠ 0#8 → step (s.issue v) = .next (ended s 0x06#8 .none)

/-- The value of bits s..e of a byte sequence, `V[L-s:L-e]` of its big-endian value (R11). -/
def bits (b : List Byte) (s e : Nat) : Nat := beNat b / 2 ^ (8 * b.length - e) % 2 ^ (e - s + 1)

/-- TABLE_F over unbounded integers, as R121 writes it. -/
def tableLoop : Nat → Nat → Nat
  | 0, acc => acc
  | n + 1, acc =>
    let top := acc / 2 ^ 23 % 2
    let shifted := acc * 2 % 2 ^ 24
    tableLoop n (if top = 1 then shifted ^^^ 0xFFF409 else shifted)

/-- The running CRC over unbounded integers, masked once after the full loop, as R123 writes it. -/
def crcLoop (t : Vector (BitVec 24) 256) (d : List Byte) : Nat :=
  d.foldl (fun crc x => (tableAt t (BitVec.ofNat 8 (((crc >>> 16) ^^^ x.toNat) &&& 0xFF))).toNat ^^^ (crc <<< 8)) 0 % 2 ^ 24

/-- The surveillance status names by code (R160). -/
def ssName (code : Nat) : Text :=
  if code = 0 then ascii "no condition" else if code = 1 then ascii "permanent alert"
  else if code = 2 then ascii "temporary alert" else ascii "spi"

/-- The loop of TEXT6_F: the low 6 bits as an index, prepended, then a shift right by 6 (R150). -/
def textLoop : Nat → Nat → Text → Text
  | 0, _, acc => acc
  | n + 1, v, acc => textLoop n (v / 64) (alphabet.getD (v % 64) 0x00#8 :: acc)

/-- Ranges that tile the bits from `s` to `l` (R107). -/
def Tiles (l : Nat) : Nat → List (Nat × Nat) → Prop
  | s, [] => s = l + 1
  | s, (a, e) :: rest => a = s ∧ s ≤ e ∧ Tiles l (e + 1) rest

/-- The low bits of the values of slices joined, the first most significant (R107). -/
def joinBits : List (Nat × Nat) → List (List Byte) → Nat → Nat
  | (s, e) :: rest, r :: rs, acc => joinBits rest rs (acc * 2 ^ (e - s + 1) + beNat r)
  | _, _, acc => acc

/-- An address in its two forms (R142). -/
def addrOf (v : Nat) : Addr := { val := BitVec.ofNat 24 v, str := hexpad 6 v }

/-- A frame record of the frame `b` with the given mode and payload; `crc` is the CRC of all bytes but the last 3, which
are the embedded field (R91, R92, R94, R199). -/
def recordFor (b : List Byte) (mode : Mode) (crc : BitVec 24) (p : Payload) : FrameRecord :=
  { len := b.length, mode := mode, df := BitVec.ofNat 5 (bits b 1 5), ca := BitVec.ofNat 3 (bits b 6 8),
    aa := addrOf (bits b 9 32), crcMatch := decide (crc.toNat = bits b (8 * b.length - 23) (8 * b.length)),
    crcHex := hexlower crc.toNat, payload := p }

/-- The bytes of hexadecimal digits, two digits a byte (R81). -/
def BytesOfDigits (b : List Byte) (ds : List Nat) : Prop :=
  ds.length = 2 * b.length
    ∧ ∀ k, k < b.length → b[k]? = some (BitVec.ofNat 8 (16 * ds.getD (2 * k) 0 + ds.getD (2 * k + 1) 0))

/-- Two states with the same operands: only bytes above the length registers, STATUS, RESULT and the port may differ. -/
def SameOperands (s t : State) : Prop :=
  bufOperand s = bufOperand t ∧ strOperand s = strOperand t ∧ s.ival = t.ival ∧ s.ivalW = t.ivalW ∧ s.crcTable = t.crcTable

end Sys2Proof.Claims

open Sys2Proof Sys2Proof.Machine Sys2Proof.Safety Sys2Proof.Claims

/-! ## Reset, idling and the host port -/

/-- The registers right after reset (R35); the contents of BUF and STR are unobservable: both operands are empty. -/
def Obligations.ResetLeavesTheSpecValues : Prop :=
  State.reset.bufLen = 0 ∧ State.reset.strLen = 0 ∧ bufOperand State.reset = [] ∧ strOperand State.reset = []
    ∧ State.reset.ivalW = false ∧ State.reset.tblValid = true ∧ State.reset.status = 0x00#8 ∧ State.reset.result = .none
    ∧ ∀ i : BitVec 8, (tableAt State.reset.crcTable i).toNat = tableLoop 8 (i.toNat * 2 ^ 16)

/-- A reset between commands: STATUS, RESULT and the lengths return to their reset values, IVAL becomes unwritten, the
table is built, in one step (R250, R253). -/
def Obligations.ResetBetweenCommands : Prop :=
  ∀ s rest, s.port = .host .reset :: rest → ∃ t, step s = .next t ∧ t.status = 0x00#8 ∧ t.result = .none ∧ t.bufLen = 0
    ∧ t.strLen = 0 ∧ t.ivalW = false ∧ t.tblValid = true
    ∧ ∀ i : BitVec 8, (tableAt t.crcTable i).toNat = tableLoop 8 (i.toNat * 2 ^ 16)

/-- Between commands the block keeps every register (60_exceptions.md section 3; that no event at the port is idling is the
model's, log entry 4). -/
def Obligations.IdleBlockKeepsEveryRegister : Prop := ∀ s : State, s.port = [] → step s = .next s

/-- A step with a legal command word at the port is exec of the decoded command, the word taken from the port. -/
def Obligations.StepRunsTheDecodedCommand : Prop :=
  ∀ (s : State) (w : Word) (rest : List PortEvent) (i : Instr), s.port = .command w :: rest → decode w = .ok i →
    step s = exec i { s with port := rest }

/-- An illegal command word ends with STATUS 6 and RESULT NONE, no other register changes, before any check a command
makes (R61, R65). -/
def Obligations.IllegalWordsEndWithStatusSix : Prop :=
  ∀ (s : State) (w : Word),
    (cField w ≠ 0#8 ∨ opField w ∉ [0x00#8, 0x01#8, 0x02#8, 0x08#8, 0x09#8, 0x0A#8, 0x10#8, 0x11#8, 0x12#8, 0x13#8, 0x14#8,
        0x15#8, 0x16#8, 0x18#8, 0x20#8, 0x30#8, 0x31#8]
      ∨ (opField w = 0x08#8 ∧ bField w ≠ 0#8)
      ∨ (opField w ∉ [0x01#8, 0x02#8, 0x08#8, 0x18#8] ∧ (aField w ≠ 0#8 ∨ bField w ≠ 0#8))) →
    step (s.issue w) = .next (ended s 0x06#8 .none)

/-- The decoder accepts exactly the legal words (R65, R66). -/
def Obligations.DecoderAcceptsExactlyTheLegalWords : Prop :=
  ∀ w : Word, legalWord w = true ↔ ∃ i, decode w = .ok i

/-- The decoder reads back every encoded command, with every immediate at every value. -/
def Obligations.DecodeOfEncode : Prop := ∀ i : Instr, decode (encode i) = .ok i

/-- A legal word has one command and a command one word. -/
def Obligations.EncodeOfDecode : Prop := ∀ (w : Word) (i : Instr), decode w = .ok i → encode i = w

/-- The encoding as a number: `(b << 16) | (a << 8) | OP`, the fields disjoint and C = 0 (R60, R67). -/
def Obligations.EncodedWordAsANumber : Prop :=
  ∀ i : Instr, (encode i).toNat = (immB i).toNat * 2 ^ 16 + (immA i).toNat * 2 ^ 8 + (opcode i).toNat

/-- Words of the spec's rules and test vectors decode to the commands they stand for. -/
def Obligations.WordsOfTheSpecDecode : Prop :=
  decode 0x00000000#32 = .ok .nop ∧ decode 0x00040101#32 = .ok (.slice 1 4) ∧ decode 0x00582102#32 = .ok (.sliceb 33 88)
    ∧ decode 0x00008008#32 = .ok (.crctab 0x80) ∧ decode 0x0000000A#32 = .ok .crcchk ∧ decode 0x00000010#32 = .ok .uint
    ∧ decode 0x00000013#32 = .ok .addrs ∧ decode 0x00050118#32 = .ok (.wvcat 1 5) ∧ decode 0x00000020#32 = .ok .decme
    ∧ decode 0x00000031#32 = .ok .decfrs ∧ decode 0x01040101#32 = .error .reservedC

/-- Source lines assemble to the words and host writes the spec gives them (R67, R68, R69). -/
def Obligations.SourceLinesAssemble : Prop :=
  assembleLine "SLICE 1, 4" = some [.command 0x00040101#32] ∧ assembleLine "CRCTAB 0x5D" = some [.command 0x00005D08#32]
    ∧ assembleLine "ALTG" = some [.command 0x00000010#32]
    ∧ assembleLine ".buf 0C 28 ; Q = 0" = some [.host (.writeBuf [0x0C#8, 0x28#8])]
    ∧ assembleLine ".ival -1" = some [.host (.writeIval 0xFFFFFFFFFFFFFFFF#64)]
    ∧ assembleLine "SLICEM 1, 4; 5, 8"
      = some [.command 0x00040101#32, .host .readResult, .command 0x00080501#32, .host .readResult]

/-- What the host may do between commands: (a) write BUF[0..k) and BUF_LEN, bytes from k on stay; (b) write STR[0..k) and
STR_LEN; (c) write IVAL, which sets IVAL_W; (d) issue a command word; (e) read STATUS and RESULT. No write changes STATUS,
RESULT or CRC_TABLE (10_state.md section 5). That the actions are a list of events, one taken a step, is the model's choice
(log entry 4), and so is that a read appends the pair to a list of what the host has read (log entry 5). -/
def Obligations.HostActionsBetweenCommands : Prop :=
  (∀ s bs rest, s.port = .host (.writeBuf bs) :: rest → bs.length ≤ 14 → Memory.wf 14 s.buf = true →
      ∃ t, step s = .next t ∧ bufOperand t = bs ∧ t.bufLen.val = bs.length
        ∧ (∀ a, bs.length ≤ a → t.buf.read a = s.buf.read a) ∧ t = { s with buf := t.buf, bufLen := t.bufLen, port := rest })
    ∧ (∀ s cs rest, s.port = .host (.writeStr cs) :: rest → cs.length ≤ 32 → Memory.wf 32 s.str = true →
      ∃ t, step s = .next t ∧ strOperand t = cs ∧ t.strLen.val = cs.length
        ∧ (∀ a, cs.length ≤ a → t.str.read a = s.str.read a) ∧ t = { s with str := t.str, strLen := t.strLen, port := rest })
    ∧ (∀ (s : State) (v : BitVec 64) (rest : List PortEvent), s.port = .host (.writeIval v) :: rest →
      step s = .next { s with ival := v, ivalW := true, port := rest })
    ∧ (∀ (s : State) (w : Word) (rest : List PortEvent), s.port = .command w :: rest →
      (∀ i, decode w = .ok i → step s = exec i { s with port := rest })
        ∧ ∀ e, decode w = .error e → step s = .next (ended { s with port := rest } 0x06#8 .none))
    ∧ ∀ (s : State) (rest : List PortEvent), s.port = .host .readResult :: rest →
      step s = .next { s with hostReads := s.hostReads ++ [(s.status, s.result)], port := rest }

/-- A host write longer than its buffer cannot be presented; the model refuses it by name (10_state.md section 5; the
refusal is the model's choice, log entry 6). -/
def Obligations.OverlongHostWritesAreRefused : Prop :=
  (∀ (s : State) (bs : List Byte) (rest : List PortEvent), s.port = .host (.writeBuf bs) :: rest → 14 < bs.length →
      step s = .refused .bufWriteTooLong)
    ∧ ∀ (s : State) (cs : Text) (rest : List PortEvent), s.port = .host (.writeStr cs) :: rest → 32 < cs.length →
      step s = .refused .strWriteTooLong

/-! ## The slicer -/

/-- NOP: STATUS 0, RESULT NONE, no operand register changes; A, B or C not 0 is illegal (R180). -/
def Obligations.NopCompletes : Prop :=
  SoleWord .nop 0x00000000#32 ∧ ∀ s, exec .nop s = .next (ended s 0x00#8 .none)

/-- SLICE: on a valid range the minimal bytes of the range's value, otherwise SLICE_RANGE (R104). -/
def Obligations.SliceExtractsTheRange : Prop :=
  TwoImmediateWord 0x01#8 .slice
    ∧ (∀ (a b : BitVec 8) (s : State), 1 ≤ a.toNat → a.toNat ≤ b.toNat → b.toNat ≤ 8 * s.bufLen.val →
      ∃ r : List Byte, r.length = (b.toNat - a.toNat + 1 + 7) / 8 ∧ beNat r = bits (bufOperand s) a.toNat b.toNat
        ∧ exec (.slice a b) s = .next (ended s 0x00#8 (.bytes r)))
    ∧ (∀ (a b : BitVec 8) (s : State), ¬ (1 ≤ a.toNat ∧ a.toNat ≤ b.toNat ∧ b.toNat ≤ 8 * s.bufLen.val) →
      exec (.slice a b) s = .next (ended s 0x04#8 .none))
    ∧ (∀ (b : BitVec 8) (s : State), b.toNat = 8 * s.bufLen.val → 1 ≤ s.bufLen.val →
      exec (.slice 1#8 b) s = .next (ended s 0x00#8 (.bytes (bufOperand s))))
    ∧ ∀ s : State, bufOperand s = [0xF0#8, 0x0F#8] →
      exec (.slice 4#8 13#8) s = .next (ended s 0x00#8 (.bytes [0x02#8, 0x01#8]))

/-- SLICEB: BUF and BUF_LEN become the slice, bytes of BUF above it keep their values, nothing else but STATUS and
RESULT changes; on an invalid range BUF and BUF_LEN keep their values (R105). -/
def Obligations.SlicebReplacesBuf : Prop :=
  TwoImmediateWord 0x02#8 .sliceb
    ∧ (∀ (a b : BitVec 8) (s : State), Memory.wf 14 s.buf = true → 1 ≤ a.toNat → a.toNat ≤ b.toNat →
      b.toNat ≤ 8 * s.bufLen.val → ∃ (r : List Byte) (t : State), r.length = (b.toNat - a.toNat + 1 + 7) / 8
        ∧ beNat r = bits (bufOperand s) a.toNat b.toNat ∧ exec (.sliceb a b) s = .next t ∧ bufOperand t = r
        ∧ t.bufLen.val = r.length ∧ (∀ x, r.length ≤ x → t.buf.read x = s.buf.read x)
        ∧ t = { s with buf := t.buf, bufLen := t.bufLen, status := 0x00#8, result := .bytes r })
    ∧ (∀ (a b : BitVec 8) (s : State), ¬ (1 ≤ a.toNat ∧ a.toNat ≤ b.toNat ∧ b.toNat ≤ 8 * s.bufLen.val) →
      exec (.sliceb a b) s = .next (ended s 0x04#8 .none))
    ∧ ∀ s : State, Memory.wf 14 s.buf = true →
      bufOperand s = [0x8D#8, 0x48#8, 0x40#8, 0xD6#8, 0x20#8, 0x2C#8, 0xC3#8, 0x71#8, 0xC3#8, 0x2C#8, 0xE0#8, 0x57#8, 0x60#8, 0x98#8] →
      ∃ t, exec (.sliceb 33#8 88#8) s = .next t ∧ bufOperand t = [0x20#8, 0x2C#8, 0xC3#8, 0x71#8, 0xC3#8, 0x2C#8, 0xE0#8]
        ∧ t.bufLen = 7 ∧ t.result = .bytes [0x20#8, 0x2C#8, 0xC3#8, 0x71#8, 0xC3#8, 0x2C#8, 0xE0#8]

/-- Bit 1 of a range numbering is the most significant bit of byte 0: one-bit slices read the bits of each byte from the
top down (R9, R43). -/
def Obligations.BitOneIsTheTopBitOfByteZero : Prop :=
  ∀ (b : List Byte) (k j : Nat) (x : Byte), b[k]? = some x → j < 8 →
    sliceF b (8 * k + j + 1) (8 * k + j + 1) = .ok [BitVec.ofNat 8 (x.toNat / 2 ^ (7 - j) % 2)]

/-- A sequence of ranges gives the slice of each range in order, and fails if any is invalid (R106). -/
def Obligations.RangesAreSlicedIndependently : Prop :=
  (∀ (b : List Byte) (ranges : List (Nat × Nat)) (rs : List (List Byte)),
      sliceSeq b ranges = .ok rs ↔ List.Forall₂ (fun p r => sliceF b p.1 p.2 = .ok r) ranges rs)
    ∧ ∀ (b : List Byte) (ranges : List (Nat × Nat)), (∃ p ∈ ranges, ¬ (1 ≤ p.1 ∧ p.1 ≤ p.2 ∧ p.2 ≤ 8 * b.length)) →
      sliceSeq b ranges = .error .sliceRange

/-- The tiling law: the joined bits of the slices of ranges that tile a buffer are the buffer (40_slicer.md section 3). -/
def Obligations.TilingRangesReproduceTheBuffer : Prop :=
  ∀ (b : List Byte) (ranges : List (Nat × Nat)), Tiles (8 * b.length) 1 ranges →
    ∃ rs, sliceSeq b ranges = .ok rs ∧ beBytes b.length (joinBits ranges rs 0) = b

/-! ## The CRC engine -/

/-- CRCTAB reads one table entry; with B or C not 0 it is illegal (R124). -/
def Obligations.CrctabReadsOneEntry : Prop :=
  (∀ (k : BitVec 8) (s : State), step (s.issue ((k.setWidth 32 <<< 8) ||| 0x08#32)) = exec (.crctab k) s)
    ∧ (∀ v s, opField v = 0x08#8 → (bField v ≠ 0#8 ∨ cField v ≠ 0#8) → step (s.issue v) = .next (ended s 0x06#8 .none))
    ∧ (∀ (k : BitVec 8) (s : State), exec (.crctab k) s = .next (ended s 0x00#8 (.nat (s.crcTable[k.toNat]'k.isLt).toNat)))
    ∧ ∀ s : State, s.crcTable = State.reset.crcTable → exec (.crctab 0x00#8) s = .next (ended s 0x00#8 (.nat 0))
      ∧ exec (.crctab 0x01#8) s = .next (ended s 0x00#8 (.nat 0xFFF409))
      ∧ exec (.crctab 0x80#8) s = .next (ended s 0x00#8 (.nat 0x0706C0))

/-- Entries of the listing of R130, at its corners and inside (computed by R121, spot checks). -/
def Obligations.TableListingSpotChecks : Prop :=
  [0x00#8, 0x01#8, 0x55#8, 0x5D#8, 0x7F#8, 0x80#8, 0xAA#8, 0xFF#8].map (tableAt tableInit)
    = [0x000000#24, 0xFFF409#24, 0xFCAF87#24, 0xFCDFEB#24, 0xFD0240#24, 0x0706C0#24, 0x06AB07#24, 0xFA0480#24]

/-- CRC24 and the table are linear over XOR, and leading zero bytes do not change the CRC (41_crc.md section 3). -/
def Obligations.CrcIsLinear : Prop :=
  (∀ a b : BitVec 8, tableAt tableInit (a ^^^ b) = tableAt tableInit a ^^^ tableAt tableInit b)
    ∧ (∀ d d' : List Byte, d.length = d'.length →
      crc24 tableInit (List.zipWith (· ^^^ ·) d d') = crc24 tableInit d ^^^ crc24 tableInit d')
    ∧ ∀ (n : Nat) (d : List Byte), crc24 tableInit (List.replicate n 0x00#8 ++ d) = crc24 tableInit d

/-- A sequence followed by its own CRC has CRC 0, so CRCGEN of a frame whose check matches is 0 (41_crc.md section 3). -/
def Obligations.AppendedCrcGivesZero : Prop :=
  (∀ d : List Byte, crc24 tableInit (d ++ beBytes 3 (crc24 tableInit d).toNat) = 0#24)
    ∧ ∀ (s t : State) (c e : BitVec 24) (h : Text), s.crcTable = tableInit → exec .crcchk s = .next t →
      t.result = .crc c (some e) (some true) h →
      exec .crcgen s = .next (ended s 0x00#8 (.crc 0#24 none none (ascii "0")))

/-- CRCGEN: the running CRC of R123, masked once after the loop, over all of BUF; its hex form unpadded; leading zero bytes
do not count, and data followed by its CRC gives 0 (R123, R125). -/
def Obligations.CrcgenRunsOverBuf : Prop :=
  SoleWord .crcgen 0x00000009#32
    ∧ (∀ s : State, exec .crcgen s = .next (ended s 0x00#8 (.crc (BitVec.ofNat 24 (crcLoop s.crcTable (bufOperand s))) none none
      (hexlower (crcLoop s.crcTable (bufOperand s))))))
    ∧ (∀ s : State, s.bufLen = 0 → exec .crcgen s = .next (ended s 0x00#8 (.crc 0#24 none none (ascii "0"))))
    ∧ (∀ (s : State) (n : Nat) (d : List Byte), s.crcTable = tableInit → bufOperand s = List.replicate n 0x00#8 ++ d →
      exec .crcgen s = .next (ended s 0x00#8 (.crc (BitVec.ofNat 24 (crcLoop tableInit d)) none none
        (hexlower (crcLoop tableInit d)))))
    ∧ (∀ (s : State) (d : List Byte), s.crcTable = tableInit → bufOperand s = d ++ beBytes 3 (crcLoop tableInit d) →
      exec .crcgen s = .next (ended s 0x00#8 (.crc 0#24 none none (ascii "0"))))
    ∧ ∀ s : State, s.crcTable = tableInit → bufOperand s = [0x5D#8, 0x48#8, 0x40#8, 0xD6#8] →
      exec .crcgen s = .next (ended s 0x00#8 (.crc 0xF8740F#24 none none (ascii "f8740f")))

/-- CRCCHK: the CRC of all bytes but the last 3, the last 3 bytes big-endian, and whether they are equal; fewer than 3
bytes is INPUT_FORMAT (R126, R127, R128). -/
def Obligations.CrcchkComparesTheLastThreeBytes : Prop :=
  SoleWord .crcchk 0x0000000A#32
    ∧ (∀ s : State, 3 ≤ s.bufLen.val → ∃ c e : BitVec 24,
      c.toNat = crcLoop s.crcTable ((bufOperand s).take (s.bufLen.val - 3))
        ∧ e.toNat = beNat ((bufOperand s).drop (s.bufLen.val - 3))
        ∧ exec .crcchk s = .next (ended s 0x00#8 (.crc c (some e) (some (decide (c = e))) (hexlower c.toNat))))
    ∧ (∀ s : State, s.bufLen.val < 3 → exec .crcchk s = .next (ended s 0x01#8 .none))
    ∧ (∀ s : State, s.bufLen.val = 3 → ∃ e, exec .crcchk s = .next (ended s 0x00#8 (.crc 0#24 (some e)
      (some (decide (bufOperand s = [0x00#8, 0x00#8, 0x00#8]))) (ascii "0"))))
    ∧ ∀ s : State, s.crcTable = tableInit →
      bufOperand s = [0x8D#8, 0x48#8, 0x40#8, 0xD6#8, 0x20#8, 0x2C#8, 0xC3#8, 0x71#8, 0xC3#8, 0x2C#8, 0xE0#8, 0x57#8, 0x60#8, 0x98#8] →
      exec .crcchk s = .next (ended s 0x00#8 (.crc 0x576098#24 (some 0x576098#24) (some true) (ascii "576098")))

/-! ## The scalar engines -/

/-- Output hex strings: `hexpad_k` has exactly k lowercase digits of its value, `hexlower` the digits of its value with no
leading zero but for the value 0, which is "0" (R13, R83). -/
def Obligations.HexFormsReadBack : Prop :=
  (∀ k v : Nat, v < 16 ^ k → (hexpad k v).length = k ∧ lowerHex (hexpad k v) = true
      ∧ ∃ ds, hexDigits (hexpad k v) = some ds ∧ digitsNat ds = v)
    ∧ ∀ v : Nat, lowerHex (hexlower v) = true ∧ (∃ ds, hexDigits (hexlower v) = some ds ∧ digitsNat ds = v)
      ∧ (v = 0 → hexlower v = ascii "0") ∧ (v ≠ 0 → ∃ c, (hexlower v).head? = some c ∧ c ≠ 0x30#8)

/-- UINT: the sum of BUF[i] * 256^(n-1-i); leading zero bytes do not change it (R141). -/
def Obligations.UintIsTheBigEndianSum : Prop :=
  SoleWord .uint 0x00000010#32
    ∧ (∀ s : State, exec .uint s = .next (ended s 0x00#8 (.nat
      (∑ k ∈ Finset.range s.bufLen.val, (s.buf.read k).toNat * 256 ^ (s.bufLen.val - 1 - k)))))
    ∧ (∀ s : State, s.bufLen = 0 → exec .uint s = .next (ended s 0x00#8 (.nat 0)))
    ∧ (∀ (s : State) (n : Nat) (d : List Byte), bufOperand s = List.replicate n 0x00#8 ++ d →
      exec .uint s = .next (ended s 0x00#8 (.nat (beNat d))))
    ∧ (∀ s : State, bufOperand s = List.replicate 14 0xFF#8 → exec .uint s = .next (ended s 0x00#8 (.nat (2 ^ 112 - 1))))
    ∧ ∀ s : State, bufOperand s = [0xAB#8, 0xCD#8, 0xEF#8] → exec .uint s = .next (ended s 0x00#8 (.nat 11259375))

/-- ADDRB: BUF of any length as one big-endian value, an ADDR in range, else VALUE_RANGE (R143). -/
def Obligations.AddrbNormalisesBuf : Prop :=
  SoleWord .addrb 0x00000011#32
    ∧ (∀ s : State, beNat (bufOperand s) ≤ 0xFFFFFF →
      exec .addrb s = .next (ended s 0x00#8 (.addr (addrOf (beNat (bufOperand s))))))
    ∧ (∀ s : State, 0xFFFFFF < beNat (bufOperand s) → exec .addrb s = .next (ended s 0x02#8 .none))
    ∧ (∀ s : State, s.bufLen.val ≤ 3 → ∃ a, exec .addrb s = .next (ended s 0x00#8 (.addr a)))
    ∧ ∀ s : State, bufOperand s = [0xAB#8, 0xCD#8, 0xEF#8] →
      exec .addrb s = .next (ended s 0x00#8 (.addr { val := 0xABCDEF#24, str := ascii "abcdef" }))

/-- ADDRI: IVAL as a signed 64-bit integer, an ADDR in range, else VALUE_RANGE; while IVAL is unwritten the step is a model
fault, in which the model stops (R144). -/
def Obligations.AddriNormalisesIval : Prop :=
  SoleWord .addri 0x00000012#32
    ∧ (∀ (s : State) (v : Nat), s.ivalW = true → s.ival.toInt = v → v ≤ 0xFFFFFF →
      exec .addri s = .next (ended s 0x00#8 (.addr (addrOf v))))
    ∧ (∀ s : State, s.ivalW = true → (s.ival.toInt < 0 ∨ 0xFFFFFF < s.ival.toInt) →
      exec .addri s = .next (ended s 0x02#8 .none))
    ∧ (∀ s : State, s.ivalW = false → exec .addri s = .fault .unwrittenIval)
    ∧ ∀ s : State, s.ivalW = true → s.ival = 1#64 →
      exec .addri s = .next (ended s 0x00#8 (.addr { val := 1#24, str := ascii "000001" }))

/-- Only an ADDRI with IVAL unwritten is a model fault, and every one is: a step faults exactly when the word 0x00000012 is
at the port and the host has not written IVAL (60_exceptions.md section 1, 42_scalar.md section 2). -/
def Obligations.OnlyUnwrittenAddriIsAModelFault : Prop :=
  ∀ (s : State) (f : Fault), step s = .fault f ↔ (∃ rest, s.port = .command 0x00000012#32 :: rest) ∧ s.ivalW = false

/-- A model fault is never final and never cleared, and no run passes one: a run that has faulted stays so however many
steps are added, and when the steps so far have led to an ADDRI with IVAL unwritten, a run of any more steps ends in the
fault, so nothing can be proved of a state after it (60_exceptions.md section 1). -/
def Obligations.NoRunPassesAModelFault : Prop :=
  (∀ (s : State) (j k : Nat) (f : Fault), Sys2Proof.core.run j s = .fault f → Sys2Proof.core.run (j + k) s = .fault f)
    ∧ ∀ (s t : State) (j k : Nat) (rest : List PortEvent), Sys2Proof.core.run j s = .next t →
      t.port = .command 0x00000012#32 :: rest → t.ivalW = false →
      Sys2Proof.core.run (j + k + 1) s = .fault Fault.unwrittenIval

/-- ADDRS: an optional 0x or 0X and one or more hex digits give an ADDR in range, else VALUE_RANGE; every other string is
INPUT_FORMAT (R82, R145, R146). -/
def Obligations.AddrsParsesTheGrammar : Prop :=
  SoleWord .addrs 0x00000013#32
    ∧ (∀ (s : State) (mark cs : Text) (ds : List Nat), strOperand s = mark ++ cs →
      mark ∈ [[], ascii "0x", ascii "0X"] → hexDigits cs = some ds → ds ≠ [] →
      (digitsNat ds ≤ 0xFFFFFF → exec .addrs s = .next (ended s 0x00#8 (.addr (addrOf (digitsNat ds)))))
        ∧ (0xFFFFFF < digitsNat ds → exec .addrs s = .next (ended s 0x02#8 .none)))
    ∧ (∀ s : State, (∀ (mark cs : Text) (ds : List Nat), strOperand s = mark ++ cs → mark ∈ [[], ascii "0x", ascii "0X"] →
      hexDigits cs = some ds → ds = []) → exec .addrs s = .next (ended s 0x01#8 .none))
    ∧ ∀ s : State, strOperand s = ascii "abcdef" →
      exec .addrs s = .next (ended s 0x00#8 (.addr { val := 0xABCDEF#24, str := ascii "abcdef" }))

/-- The three forms of an address in range give one ADDR result (42_scalar.md section 2). -/
def Obligations.AddressFormsAgree : Prop :=
  ∀ (v : Nat) (sb si ss : State), v ≤ 0xFFFFFF → bufOperand sb = beBytes 3 v → si.ivalW = true → si.ival.toInt = v →
    strOperand ss = hexpad 6 v →
    exec .addrb sb = .next (ended sb 0x00#8 (.addr (addrOf v))) ∧ exec .addri si = .next (ended si 0x00#8 (.addr (addrOf v)))
      ∧ exec .addrs ss = .next (ended ss 0x00#8 (.addr (addrOf v)))

/-- TEXT6: floor(8n / 6) characters, by the loop that takes the low 6 bits, prepends their character and shifts right
(R150, R151). -/
def Obligations.Text6DecodesBuf : Prop :=
  SoleWord .text6 0x00000014#32
    ∧ (∀ s : State, exec .text6 s
      = .next (ended s 0x00#8 (.text (textLoop (8 * s.bufLen.val / 6) (beNat (bufOperand s)) []))))
    ∧ (∀ s : State, s.bufLen = 0 → exec .text6 s = .next (ended s 0x00#8 (.text [])))
    ∧ ∀ s : State, bufOperand s = [0x2C#8, 0xC3#8, 0x71#8, 0xC3#8, 0x2C#8, 0xE0#8] →
      exec .text6 s = .next (ended s 0x00#8 (.text (ascii "KLM1023 ")))

/-- The order law of packed text: character j is the alphabet's at bits (T mod 6) + 6j + 1 to (T mod 6) + 6j + 6, and there
are floor(T / 6) of them (42_scalar.md section 3). -/
def Obligations.Text6OrderLaw : Prop :=
  ∀ s : State, ∃ t : Text, exec .text6 s = .next (ended s 0x00#8 (.text t)) ∧ t.length = 8 * s.bufLen.val / 6
    ∧ ∀ j, j < t.length → t[j]?
        = alphabet[bits (bufOperand s) (8 * s.bufLen.val % 6 + 6 * j + 1) (8 * s.bufLen.val % 6 + 6 * j + 6)]?

/-- The character sets: the 22 hexadecimal digit characters and their values, every other character none; the 6-bit
alphabet, 64 characters in the source's order, not injective (R80, R84, R85). -/
def Obligations.CharacterSetsOfTheSpec : Prop :=
  (∀ (c : Byte) (d : Nat), hexVal c = some d ↔ (d ≤ 9 ∧ c.toNat = 0x30 + d) ∨ (10 ≤ d ∧ d ≤ 15 ∧ c.toNat = 0x41 + (d - 10))
      ∨ (10 ≤ d ∧ d ≤ 15 ∧ c.toNat = 0x61 + (d - 10)))
    ∧ ascii "09afAFxX" = [0x30#8, 0x39#8, 0x61#8, 0x66#8, 0x41#8, 0x46#8, 0x78#8, 0x58#8]
    ∧ alphabet = ascii "@ABCDEFGHIJKLMNOPQRSTUVWXYZ[/]^_ !\"#$%&\\()*+,-./0123456789:;<=>?" ∧ alphabet.length = 64
    ∧ alphabet[28]? = some 0x2F#8 ∧ alphabet[39]? = some 0x5C#8 ∧ alphabet[47]? = some 0x2F#8

/-- ALTB: high, Q and low of the 12-bit field; Q = 1 gives (high * 4 + low) * 25 - 1000 feet, Q = 0 UNSUPPORTED_ENCODING,
a value of 4096 or more INPUT_FORMAT (R155 to R158). -/
def Obligations.AltbScalesTheField : Prop :=
  SoleWord .altb 0x00000015#32
    ∧ (∀ (s : State) (high low : Nat), high < 128 → low < 16 → beNat (bufOperand s) = high * 32 + 16 + low →
      exec .altb s = .next (ended s 0x00#8 (.sint ((high * 4 + low) * 25 - 1000))))
    ∧ (∀ (s : State) (high low : Nat), high < 128 → low < 16 → beNat (bufOperand s) = high * 32 + low →
      exec .altb s = .next (ended s 0x03#8 .none))
    ∧ (∀ s : State, 4096 ≤ beNat (bufOperand s) → exec .altb s = .next (ended s 0x01#8 .none))
    ∧ ∀ s : State, bufOperand s = [0x00#8, 0xB3#8] → exec .altb s = .next (ended s 0x00#8 (.sint (-425)))

/-- Every altitude ALTB gives lies in -1000 to 12075 in steps of 25, and both ends occur (42_scalar.md section 4). -/
def Obligations.AltitudesStayInRange : Prop :=
  (∀ (s t : State) (v : Int), exec .altb s = .next t → t.result = .sint v → -1000 ≤ v ∧ v ≤ 12075 ∧ v % 25 = 0)
    ∧ (∀ s : State, bufOperand s = [0x00#8, 0x10#8] → exec .altb s = .next (ended s 0x00#8 (.sint (-1000))))
    ∧ ∀ s : State, bufOperand s = [0x0F#8, 0xFF#8] → exec .altb s = .next (ended s 0x00#8 (.sint 12075))

/-- SSTAT: the name of codes 0 to 3, above them DECODE_ERROR (R160, R161). -/
def Obligations.SstatNamesTheStatus : Prop :=
  SoleWord .sstat 0x00000016#32
    ∧ (∀ s : State, beNat (bufOperand s) ≤ 3 → exec .sstat s = .next (ended s 0x00#8 (.name (ssName (beNat (bufOperand s))))))
    ∧ ∀ s : State, 3 < beNat (bufOperand s) → exec .sstat s = .next (ended s 0x05#8 .none)

/-- WVCAT: nothing for TC 0 and from 5 on, "reserved" for TC 1, WV_NAME for TC 2 to 4 (for every table of names), and
INPUT_FORMAT for a category above 7 (R170, R171). -/
def Obligations.WvcatLooksUpTheName : Prop :=
  TwoImmediateWord 0x18#8 .wvcat
    ∧ (∀ (tc cat : BitVec 8) (s : State), cat.toNat ≤ 7 → (tc = 0#8 ∨ 5 ≤ tc.toNat) →
      exec (.wvcat tc cat) s = .next (ended s 0x00#8 (.optname none)))
    ∧ (∀ (cat : BitVec 8) (s : State), cat.toNat ≤ 7 →
      exec (.wvcat 1#8 cat) s = .next (ended s 0x00#8 (.optname (some (ascii "reserved")))))
    ∧ (∀ (k : Fin 3) (c : Fin 8) (s : State), exec (.wvcat (BitVec.ofNat 8 (k.val + 2)) (BitVec.ofNat 8 c.val)) s
      = .next (ended s 0x00#8 (.optname (some (Config.wvName k c)))))
    ∧ ∀ (tc cat : BitVec 8) (s : State), 7 < cat.toNat → exec (.wvcat tc cat) s = .next (ended s 0x01#8 .none)

/-! ## The dispatch multiplexer -/

/-- DECME: a buffer that is not 7 bytes is INPUT_FORMAT; TC 9 to 18 with Q = 0 is UNSUPPORTED_ENCODING; every other ME field
completes with the variant ME_F gives; its only word is 0x00000020 (R190). -/
def Obligations.DecmeCompletesOrFails : Prop :=
  SoleWord .decme 0x00000020#32
    ∧ (∀ s : State, s.bufLen ≠ 7 → exec .decme s = .next (ended s 0x01#8 .none))
    ∧ (∀ s : State, s.bufLen = 7 → 9 ≤ bits (bufOperand s) 1 5 → bits (bufOperand s) 1 5 ≤ 18 →
      bits (bufOperand s) 16 16 = 0 → exec .decme s = .next (ended s 0x03#8 .none))
    ∧ (∀ s : State, s.bufLen = 7 → (bits (bufOperand s) 1 5 < 9 ∨ 18 < bits (bufOperand s) 1 5 ∨ bits (bufOperand s) 16 16 = 1) →
      ∃ m, meF (bufOperand s) = .ok m ∧ exec .decme s = .next (ended s 0x00#8 (.me m)))
    ∧ ∀ s : State, bufOperand s = [0x58#8, 0xC3#8, 0x82#8, 0xD6#8, 0x90#8, 0xC8#8, 0xAC#8] →
      exec .decme s = .next (ended s 0x00#8 (.me (.posBaro 11#5 (ascii "no condition") 0#1 8900 0#1 0#1 93000#17 51372#17)))

/-- DECME of TC 1 to 4: identification, the 8 characters of bits 9 to 56 untrimmed, and the wake-vortex name, "reserved" for
TC 1 and WV_NAME(tc, cat) for TC 2 to 4, whatever that table is (R97, R192). -/
def Obligations.DecmeIdentification : Prop :=
  ∀ s : State, s.bufLen = 7 → 1 ≤ bits (bufOperand s) 1 5 → bits (bufOperand s) 1 5 ≤ 4 →
    ∃ wv : Text, exec .decme s = .next (ended s 0x00#8 (.me (.ident (BitVec.ofNat 5 (bits (bufOperand s) 1 5))
        (BitVec.ofNat 3 (bits (bufOperand s) 6 8)) (textLoop 8 (bits (bufOperand s) 9 56) []) wv)))
      ∧ (textLoop 8 (bits (bufOperand s) 9 56) []).length = 8
      ∧ (bits (bufOperand s) 1 5 = 1 → wv = ascii "reserved")
      ∧ ∀ (k : Fin 3) (c : Fin 8), bits (bufOperand s) 1 5 = k.val + 2 → bits (bufOperand s) 6 8 = c.val → wv = Config.wvName k c

/-- DECME of TC 9 to 18 with Q = 1: airborne position, barometric altitude in feet; of TC 20 to 22: the same shape, the
altitude the plain unsigned 12 bits in metres, Q not checked; the CPR latitude and longitude stay raw (R98, R193). -/
def Obligations.DecmeAirbornePosition : Prop :=
  ∀ (s : State) (me : List Byte), s.bufLen = 7 → bufOperand s = me →
    (9 ≤ bits me 1 5 → bits me 1 5 ≤ 18 → bits me 16 16 = 1 →
      exec .decme s = .next (ended s 0x00#8 (.me (.posBaro (BitVec.ofNat 5 (bits me 1 5)) (ssName (bits me 6 7))
        (BitVec.ofNat 1 (bits me 8 8)) ((bits me 9 15 * 4 + bits me 17 20) * 25 - 1000) (BitVec.ofNat 1 (bits me 21 21))
        (BitVec.ofNat 1 (bits me 22 22)) (BitVec.ofNat 17 (bits me 23 39)) (BitVec.ofNat 17 (bits me 40 56))))))
    ∧ (9 ≤ bits me 1 5 → bits me 1 5 ≤ 18 → bits me 16 16 = 0 → exec .decme s = .next (ended s 0x03#8 .none))
    ∧ (20 ≤ bits me 1 5 → bits me 1 5 ≤ 22 →
      exec .decme s = .next (ended s 0x00#8 (.me (.posGnss (BitVec.ofNat 5 (bits me 1 5)) (ssName (bits me 6 7))
        (BitVec.ofNat 1 (bits me 8 8)) (BitVec.ofNat 12 (bits me 9 20)) (BitVec.ofNat 1 (bits me 21 21))
        (BitVec.ofNat 1 (bits me 22 22)) (BitVec.ofNat 17 (bits me 23 39)) (BitVec.ofNat 17 (bits me 40 56))))))

/-- DECME of TC 19: airborne velocity, every field its raw value (R99, R194). -/
def Obligations.DecmeVelocity : Prop :=
  ∀ (s : State) (me : List Byte), s.bufLen = 7 → bufOperand s = me → bits me 1 5 = 19 →
    exec .decme s = .next (ended s 0x00#8 (.me (.velocity 19#5 (BitVec.ofNat 3 (bits me 6 8)) (BitVec.ofNat 1 (bits me 9 9))
      (BitVec.ofNat 1 (bits me 10 10)) (BitVec.ofNat 3 (bits me 11 13)) (BitVec.ofNat 22 (bits me 14 35))
      (BitVec.ofNat 1 (bits me 36 36)) (BitVec.ofNat 1 (bits me 37 37)) (BitVec.ofNat 9 (bits me 38 46))
      (BitVec.ofNat 2 (bits me 47 48)) (BitVec.ofNat 1 (bits me 49 49)) (BitVec.ofNat 7 (bits me 50 56)))))

/-- DECME of the named type codes 23 to 27, 28, 29 and 31, and of the unknown ones 0, 5 to 8 and 30, which complete with
the raw 56 bits (R195). -/
def Obligations.DecmeNamedAndUnknown : Prop :=
  ∀ (s : State) (me : List Byte), s.bufLen = 7 → bufOperand s = me →
    (∀ n : BitVec 5, bits me 1 5 = n.toNat → 23 ≤ n.toNat → n.toNat ≤ 27 →
      exec .decme s = .next (ended s 0x00#8 (.me (.reserved n (ascii "reserved")))))
    ∧ (bits me 1 5 = 28 → exec .decme s = .next (ended s 0x00#8 (.me (.aircraftStatus 28#5 (ascii "aircraft status")))))
    ∧ (bits me 1 5 = 29 → exec .decme s = .next (ended s 0x00#8 (.me (.targetStateStatus 29#5 (ascii "target state/status")))))
    ∧ (bits me 1 5 = 31 →
      exec .decme s = .next (ended s 0x00#8 (.me (.aircraftOperationStatus 31#5 (ascii "aircraft operation status")))))
    ∧ ∀ n : BitVec 5, bits me 1 5 = n.toNat → n.toNat ∈ [0, 5, 6, 7, 8, 30] →
      exec .decme s = .next (ended s 0x00#8 (.me (.unknown n (BitVec.ofNat 56 (beNat me)))))

/-- The variant DECME answers is the one the TC map gives its type code, which it carries, its code the one of
the tag table (30_encoding.md section 8). -/
def Obligations.VariantFollowsTheTypeCode : Prop :=
  ∀ (s t : State) (m : MeVariant), exec .decme s = .next t → t.result = .me m →
    meTag m = tcTag (bits (bufOperand s) 1 5) ∧ (meTc m).toNat = bits (bufOperand s) 1 5

/-- DECFR, every frame: 7 bytes are a short squitter whatever its DF, the data passed through as 6 hex digits; 14 bytes are
an extended squitter, with DF 17 the ME field decoded, else passed through as 14 hex digits; the CRC of all bytes but the
last 3 is compared with those and reported, and the record is complete whether it matches or not (R90, R91, R92, R94, R196,
R197, R199). -/
def Obligations.DecfrDecodesEveryFrame : Prop :=
  ∀ (s : State) (b : List Byte), bufOperand s = b →
    (b.length = 7 → ∃ crc : BitVec 24, crc.toNat = crcLoop s.crcTable (b.take 4)
      ∧ exec .decfr s = .next (ended s 0x00#8 (.frame (recordFor b .short crc (.passthrough (hexpad 6 (bits b 33 56)))))))
    ∧ (b.length = 14 → bits b 1 5 ≠ 17 → ∃ crc : BitVec 24, crc.toNat = crcLoop s.crcTable (b.take 11)
      ∧ exec .decfr s = .next (ended s 0x00#8 (.frame (recordFor b .extended crc (.passthrough (hexpad 14 (bits b 33 88)))))))
    ∧ (b.length = 14 → bits b 1 5 = 17 → (bits b 33 37 < 9 ∨ 18 < bits b 33 37 ∨ bits b 48 48 = 1) →
      ∃ (crc : BitVec 24) (m : MeVariant), crc.toNat = crcLoop s.crcTable (b.take 11) ∧ meF ((b.drop 4).take 7) = .ok m
        ∧ exec .decfr s = .next (ended s 0x00#8 (.frame (recordFor b .extended crc (.mepay m)))))
    ∧ (b.length = 14 → bits b 1 5 = 17 → 9 ≤ bits b 33 37 → bits b 33 37 ≤ 18 → bits b 48 48 = 0 →
      meF ((b.drop 4).take 7) = .error .unsupportedEncoding ∧ exec .decfr s = .next (ended s 0x03#8 .none))
    ∧ (b.length ≠ 7 → b.length ≠ 14 → exec .decfr s = .next (ended s 0x01#8 .none))

/-- In a short squitter the data field is the embedded CRC field: the passthrough hex DECFR gives is that of the last 3
bytes (30_encoding.md section 7). -/
def Obligations.ShortFrameDataIsItsCrcField : Prop :=
  ∀ (s t : State) (r : FrameRecord) (h : Text), s.bufLen = 7 → exec .decfr s = .next t → t.result = .frame r →
    r.payload = .passthrough h → h = hexpad 6 (beNat ((bufOperand s).drop 4))
      ∧ r.crcMatch = decide (crcLoop s.crcTable ((bufOperand s).take 4) = beNat ((bufOperand s).drop 4))

/-- DECFR: INPUT_FORMAT for a length other than 7 and 14, UNSUPPORTED_ENCODING for a 14-byte DF 17 frame with TC 9 to 18 and
Q = 0, every other frame completes with the record FRAME_F gives; its only word is 0x00000030 (R200). -/
def Obligations.DecfrCompletesOrFails : Prop :=
  SoleWord .decfr 0x00000030#32
    ∧ (∀ s : State, s.bufLen ≠ 7 → s.bufLen ≠ 14 → exec .decfr s = .next (ended s 0x01#8 .none))
    ∧ (∀ s : State, grayFrame (bufOperand s) → exec .decfr s = .next (ended s 0x03#8 .none))
    ∧ (∀ s : State, (s.bufLen = 7 ∨ s.bufLen = 14) → ¬ grayFrame (bufOperand s) →
      ∃ r, frameF s.crcTable (bufOperand s) = .ok r ∧ exec .decfr s = .next (ended s 0x00#8 (.frame r)))
    ∧ ∀ s : State, s.crcTable = tableInit →
      bufOperand s = [0x8D#8, 0x48#8, 0x40#8, 0xD6#8, 0x20#8, 0x2C#8, 0xC3#8, 0x71#8, 0xC3#8, 0x2C#8, 0xE0#8, 0x57#8, 0x60#8, 0x98#8] →
      exec .decfr s = .next (ended s 0x00#8 (.frame
        { len := 14, mode := .extended, df := 17#5, ca := 5#3, aa := { val := 0x4840D6#24, str := ascii "4840d6" },
          crcMatch := true, crcHex := ascii "576098",
          payload := .mepay (.ident 4#5 0#3 (ascii "KLM1023 ") (Config.wvName 2 0)) }))

/-- DECFRS: the hex digits of a frame, in either case, give the record FRAME_F gives for its bytes, the one DECFR gives on
them; an odd length, a character that is no hex digit, or a parsed length other than 7 and 14 is INPUT_FORMAT, and a frame
DECFR does not support UNSUPPORTED_ENCODING; BUF is not written; its only word is 0x00000031 (R81, R201, R202). -/
def Obligations.DecfrsDecodesTheHexString : Prop :=
  SoleWord .decfrs 0x00000031#32
    ∧ (∀ (s : State) (b : List Byte) (ds : List Nat), hexDigits (strOperand s) = some ds → BytesOfDigits b ds →
      (b.length = 7 ∨ b.length = 14) → ¬ grayFrame b →
      ∃ r, frameF s.crcTable b = .ok r ∧ exec .decfrs s = .next (ended s 0x00#8 (.frame r))
        ∧ ∀ t : State, bufOperand t = b → t.crcTable = s.crcTable → exec .decfr t = .next (ended t 0x00#8 (.frame r)))
    ∧ (∀ s : State, (s.strLen.val % 2 = 1 ∨ hexDigits (strOperand s) = none ∨ (s.strLen.val ≠ 14 ∧ s.strLen.val ≠ 28)) →
      exec .decfrs s = .next (ended s 0x01#8 .none))
    ∧ ∀ (s : State) (b : List Byte) (ds : List Nat), hexDigits (strOperand s) = some ds → BytesOfDigits b ds → grayFrame b →
      exec .decfrs s = .next (ended s 0x03#8 .none)

/-! ## The whole machine -/

/-- Apart from STATUS and RESULT no command writes any register except SLICEB, which writes BUF and BUF_LEN: every other
register, every byte of both buffers, the table and the port stay (R34). -/
def Obligations.CommandsWriteOnlyStatusAndResult : Prop :=
  (∀ (i : Instr) (s t : State), (∀ a b, i ≠ .sliceb a b) → exec i s = .next t → t = ended s t.status t.result)
    ∧ ∀ (a b : BitVec 8) (s t : State), exec (.sliceb a b) s = .next t →
      t = { ended s t.status t.result with buf := t.buf, bufLen := t.bufLen }

/-- The effect of an error: STATUS its code, RESULT NONE, nothing else, for SLICEB too (R222). -/
def Obligations.ErrorsChangeNothingElse : Prop :=
  ∀ (i : Instr) (s t : State), exec i s = .next t → t.status ≠ 0x00#8 →
    t = ended s t.status .none ∧ t.status ∈ [0x01#8, 0x02#8, 0x03#8, 0x04#8, 0x05#8, 0x06#8]

/-- No error is sticky: whatever STATUS and RESULT hold, the next command, legal or not, does the same and overwrites both
(R223). -/
def Obligations.EarlierStatusIsForgotten : Prop :=
  (∀ (i : Instr) (s : State) (c : BitVec 8) (r : Result), exec i (ended s c r) = exec i s)
    ∧ ∀ (w : Word) (s : State) (c : BitVec 8) (r : Result), step ((ended s c r).issue w) = step (s.issue w)

/-- No command reads a byte beyond the length registers or anything but its operands: states with the same operands give
the same STATUS and RESULT, or the same stop (10_state.md section 3). -/
def Obligations.OnlyOperandsMatter : Prop :=
  ∀ (i : Instr) (s t : State), SameOperands s t →
    (∀ s', exec i s = .next s' → ∃ t', exec i t = .next t' ∧ t'.status = s'.status ∧ t'.result = s'.result)
      ∧ ∀ f, exec i s = .fault f → exec i t = .fault f

/-- A frame decodes alike whatever commands, none of them SLICEB, ran before it (44_dispatch.md section 4). -/
def Obligations.FrameDecodingIsPure : Prop :=
  ∀ (i : Instr) (s t : State), (∀ a b, i ≠ .sliceb a b) → exec i s = .next t → exec .decfr t = exec .decfr s

/-- Every command, from every state and whatever its operands, ends in one step with a STATUS of the table of codes, and
with RESULT NONE where that is an error, but for ADDRI while IVAL is unwritten, the only one that stops; and so does every
event that can be presented (60_exceptions.md sections 1 and 3). -/
def Obligations.EveryStepEnds : Prop :=
  (∀ (i : Instr) (s : State), (i = .addri → s.ivalW = true) →
      ∃ t, exec i s = .next t ∧ t.status.toNat ≤ 6 ∧ (t.status ≠ 0x00#8 → t.result = .none))
    ∧ (∀ (i : Instr) (s : State) (f : Fault), exec i s = .fault f → i = .addri ∧ s.ivalW = false)
    ∧ ∀ s : State, (∀ ev rest, s.port = ev :: rest → eventFits ev = true ∧ eventReady s.ivalW ev = true) → ∃ t, step s = .next t

/-- Every step keeps the invariant of the block: canonical buffers, the CRC table reset built, TBL_VALID, STATUS a code of the
table of codes and RESULT one of its kinds within its ranges, NONE after an error (10_state.md sections 4 and 6, 30_encoding.md
section 3; the canonical form of the buffers is the model's). -/
def Obligations.StepKeepsGoodState : Prop := ∀ s t : State, GoodState s → step s = .next t → GoodState t

/-- The invariant holds right after reset. -/
def Obligations.ResetIsGood : Prop := GoodState State.reset
end

