-- ==== Sys2Proof/Laws/Bits.lean ====
section
/-! SUPPORT. The big-endian value and its bytes, and the hexadecimal forms. -/

namespace Sys2Proof.Machine

theorem beNat_lt (b : List Byte) : beNat b < 256 ^ b.length := by
  induction b with
  | nil => simp [beNat]
  | cons x xs ih =>
    have hx : x.toNat ≤ 255 := by have := x.isLt; omega
    calc beNat (x :: xs) < x.toNat * 256 ^ xs.length + 256 ^ xs.length := by simpa [beNat] using ih
      _ ≤ 255 * 256 ^ xs.length + 256 ^ xs.length := by gcongr
      _ = 256 ^ (x :: xs).length := by rw [List.length_cons, pow_succ]; ring

/-- The value of an n-byte buffer fits 8n bits. -/
theorem beNat_lt_two_pow (b : List Byte) : beNat b < 2 ^ (8 * b.length) := by
  have := beNat_lt b
  rwa [show (256 : Nat) = 2 ^ 8 by norm_num, ← pow_mul] at this

theorem beNat_append (a b : List Byte) : beNat (a ++ b) = beNat a * 256 ^ b.length + beNat b := by
  induction a with
  | nil => simp [beNat]
  | cons x xs ih =>
    simp only [List.cons_append, beNat, ih, List.length_append, pow_add]
    ring

@[simp] theorem beBytes_length (k v : Nat) : (beBytes k v).length = k := by
  induction k with
  | zero => rfl
  | succ k ih => simp [beBytes, ih]

/-- The k bytes of v hold v modulo 256^k. -/
theorem beNat_beBytes (k v : Nat) : beNat (beBytes k v) = v % 256 ^ k := by
  induction k with
  | zero => simp [beBytes, beNat, Nat.mod_one]
  | succ k ih =>
    simp only [beBytes, beNat, beBytes_length, ih, BitVec.toNat_ofNat]
    rw [pow_succ 256 k, Nat.mod_mul (a := 256 ^ k), show 2 ^ 8 = 256 by norm_num]
    ring

theorem beNat_beBytes_of_lt (k v : Nat) (h : v < 256 ^ k) : beNat (beBytes k v) = v := by
  rw [beNat_beBytes, Nat.mod_eq_of_lt h]

/-- A byte sequence is the big-endian bytes of its value. -/
theorem beBytes_beNat (b : List Byte) : beBytes b.length (beNat b) = b := by
  suffices h : ∀ (b : List Byte) (m : Nat), beBytes b.length (m * 256 ^ b.length + beNat b) = b by simpa using h b 0
  intro b
  induction b with
  | nil => intro m; rfl
  | cons x xs ih =>
    intro m
    have hx : (m * 256 ^ (xs.length + 1) + (x.toNat * 256 ^ xs.length + beNat xs)) / 256 ^ xs.length = m * 256 + x.toNat := by
      rw [show m * 256 ^ (xs.length + 1) + (x.toNat * 256 ^ xs.length + beNat xs)
        = beNat xs + 256 ^ xs.length * (m * 256 + x.toNat) by ring, Nat.add_mul_div_left _ _ (by positivity),
        Nat.div_eq_of_lt (beNat_lt xs), Nat.zero_add]
    simp only [List.length_cons, beBytes, beNat, hx, List.cons.injEq]
    constructor
    · apply BitVec.eq_of_toNat_eq
      have := x.isLt
      simp only [BitVec.toNat_ofNat]
      omega
    · rw [show m * 256 ^ (xs.length + 1) + (x.toNat * 256 ^ xs.length + beNat xs)
        = (m * 256 + x.toNat) * 256 ^ xs.length + beNat xs by ring]
      exact ih _

/-- Sequences of one length with one value are equal. -/
theorem beNat_injective {a b : List Byte} (hl : a.length = b.length) (h : beNat a = beNat b) : a = b := by
  rw [← beBytes_beNat a, ← beBytes_beNat b, hl, h]

@[simp] theorem hexpad_length (k v : Nat) : (hexpad k v).length = k := by
  induction k with
  | zero => rfl
  | succ k ih => simp [hexpad, ih]

theorem hexChar_mem (d : Nat) (h : d < 16) :
    (0x30 ≤ (hexChar d).toNat ∧ (hexChar d).toNat ≤ 0x39) ∨ (0x61 ≤ (hexChar d).toNat ∧ (hexChar d).toNat ≤ 0x66) := by
  interval_cases d <;> decide

@[simp] theorem hexVal_hexChar (d : Nat) (h : d < 16) : hexVal (hexChar d) = some d := by
  interval_cases d <;> decide

theorem hexVal_lt (c : Byte) (d : Nat) (h : hexVal c = some d) : d < 16 := by
  unfold hexVal at h
  split at h
  · simp at h; omega
  · split at h
    · simp at h; omega
    · split at h
      · simp at h; omega
      · simp at h

theorem hexDigits_length (cs : Text) (ds : List Nat) (h : hexDigits cs = some ds) : ds.length = cs.length := by
  induction cs generalizing ds with
  | nil => simp [hexDigits] at h; simp [h]
  | cons c cs ih =>
    simp only [hexDigits] at h
    split at h
    · rename_i h1 h2
      cases h
      simp [ih _ h2]
    · cases h

/-- The digits of a padded string are those of its value. -/
theorem hexDigits_hexpad (k v : Nat) : ∃ ds, hexDigits (hexpad k v) = some ds ∧ digitsNat ds = v % 16 ^ k := by
  induction k with
  | zero => exact ⟨[], rfl, by simp [digitsNat, Nat.mod_one]⟩
  | succ k ih =>
    obtain ⟨ds, h1, h2⟩ := ih
    refine ⟨v / 16 ^ k % 16 :: ds, ?_, ?_⟩
    · simp [hexpad, hexDigits, h1, hexVal_hexChar _ (Nat.mod_lt (v / 16 ^ k) (by norm_num : 16 > 0))]
    · rw [digitsNat, h2, hexDigits_length _ _ h1, hexpad_length, pow_succ, Nat.mod_mul]
      ring

theorem pairBytes_length (ds : List Nat) : (pairBytes ds).length = ds.length / 2 := by
  induction ds using pairBytes.induct with
  | case1 hi lo rest ih => simp [pairBytes, ih]; omega
  | case2 ds h =>
    rcases ds with _ | ⟨a, _ | ⟨b, rest⟩⟩
    · rfl
    · simp [pairBytes]
    · exact absurd rfl (h a b rest)

end Sys2Proof.Machine
end

