-- ==== Sys2Proof/Laws/Decode.lean ====
section
/-! SUPPORT. The fields of a built word, and a word from its fields. -/

namespace Sys2Proof

theorem opField_wordOf (op a b : BitVec 8) : opField (wordOf op a b) = op := by
  apply BitVec.eq_of_getLsbD_eq
  intro i hi
  simp only [opField, wordOf, BitVec.getLsbD_extractLsb', BitVec.getLsbD_or, BitVec.getLsbD_shiftLeft, BitVec.getLsbD_setWidth]
  have h1 : i < 32 ∧ i < 16 := by omega
  simp [hi, h1, -BitVec.getLsbD_eq_getElem]

theorem aField_wordOf (op a b : BitVec 8) : aField (wordOf op a b) = a := by
  apply BitVec.eq_of_getLsbD_eq
  intro i hi
  simp only [aField, wordOf, BitVec.getLsbD_extractLsb', BitVec.getLsbD_or, BitVec.getLsbD_shiftLeft, BitVec.getLsbD_setWidth]
  have h1 : 8 + i < 16 := by omega
  simp [hi, h1, show 8 + i < 32 by omega, show i < 32 by omega, -BitVec.getLsbD_eq_getElem]

theorem bField_wordOf (op a b : BitVec 8) : bField (wordOf op a b) = b := by
  apply BitVec.eq_of_getLsbD_eq
  intro i hi
  simp only [bField, wordOf, BitVec.getLsbD_extractLsb', BitVec.getLsbD_or, BitVec.getLsbD_shiftLeft, BitVec.getLsbD_setWidth]
  have h4 : op.getLsbD (16 + i) = false := BitVec.getLsbD_of_ge _ _ (by omega)
  have h5 : a.getLsbD (16 + i - 8) = false := BitVec.getLsbD_of_ge _ _ (by omega)
  simp [hi, h4, h5, show 16 + i < 32 by omega, show i < 32 by omega, -BitVec.getLsbD_eq_getElem]

theorem cField_wordOf (op a b : BitVec 8) : cField (wordOf op a b) = 0#8 := by
  apply BitVec.eq_of_getLsbD_eq
  intro i hi
  simp only [cField, wordOf, BitVec.getLsbD_extractLsb', BitVec.getLsbD_or, BitVec.getLsbD_shiftLeft, BitVec.getLsbD_setWidth]
  have h4 : op.getLsbD (24 + i) = false := BitVec.getLsbD_of_ge _ _ (by omega)
  have h5 : a.getLsbD (24 + i - 8) = false := BitVec.getLsbD_of_ge _ _ (by omega)
  have h6 : b.getLsbD (24 + i - 16) = false := BitVec.getLsbD_of_ge _ _ (by omega)
  simp [h4, h5, h6]

/-- A word with C = 0 is built from its OP, A and B (R60). -/
theorem wordOf_fields (w : Word) (h : cField w = 0#8) : wordOf (opField w) (aField w) (bField w) = w := by
  have hc : ∀ j, j < 8 → w.getLsbD (24 + j) = false := by
    intro j hj
    have := congrArg (fun x => x.getLsbD j) h
    simpa [cField, hj] using this
  apply BitVec.eq_of_getLsbD_eq
  intro i hi
  simp only [wordOf, opField, aField, bField, BitVec.getLsbD_or, BitVec.getLsbD_shiftLeft, BitVec.getLsbD_setWidth,
    BitVec.getLsbD_extractLsb']
  rcases Nat.lt_or_ge i 8 with h8 | h8
  · simp [hi, h8, show i < 16 by omega, -BitVec.getLsbD_eq_getElem]
  rcases Nat.lt_or_ge i 16 with h16 | h16
  · simp [hi, show ¬ i < 8 by omega, show i - 8 < 8 by omega, h16, show 8 + (i - 8) = i by omega, show i - 8 < 32 by omega, -BitVec.getLsbD_eq_getElem]
  rcases Nat.lt_or_ge i 24 with h24 | h24
  · simp [hi, show ¬ i < 8 by omega, show ¬ i < 16 by omega, show ¬ i - 8 < 8 by omega, show i - 16 < 8 by omega,
      show 16 + (i - 16) = i by omega, show i - 16 < 32 by omega, -BitVec.getLsbD_eq_getElem]
  · have := hc (i - 24) (by omega)
    rw [show 24 + (i - 24) = i by omega] at this
    simp [show ¬ i < 8 by omega, show ¬ i - 8 < 8 by omega, show ¬ i - 16 < 8 by omega, this]

/-- The decoder on a built word (R66). -/
theorem decode_wordOf (op a b : BitVec 8) : decode (wordOf op a b) = decodeOp op a b := by
  simp [decode, cField_wordOf, opField_wordOf, aField_wordOf, bField_wordOf]

end Sys2Proof
end

