-- ==== Sys2Proof/Laws/Memory.lean ====
section
/-! SUPPORT. The buffers: a read after a write, the canonical form and that every operation keeps it, and that canonical
buffers with equal reads are equal. -/

namespace Sys2Proof.Machine

theorem Memory.read_entry (a : Nat) (v : Byte) (m : Memory) (x : Nat) (h : Memory.read m a = unlistedByte) :
    Memory.read (Memory.entry a v m) x = if x = a then v else Memory.read m x := by
  unfold Memory.entry
  by_cases hv : v = unlistedByte
  · by_cases hx : x = a <;> simp [hv, hx, h]
  · by_cases hx : x = a
    · simp [hv, hx, Memory.read]
    · simp [hv, hx, Memory.read, Ne.symm hx]

/-- Below its first address a canonical buffer lists nothing. -/
theorem Memory.read_below (cap lo : Nat) (m : Memory) (h : Memory.wfFrom cap lo m = true) (a : Nat) (ha : a < lo) :
    Memory.read m a = unlistedByte := by
  induction m generalizing lo with
  | nil => rfl
  | cons e rest ih =>
    obtain ⟨k, x⟩ := e
    simp only [Memory.wfFrom, Bool.and_eq_true, decide_eq_true_eq] at h
    simp only [Memory.read]
    rw [if_neg (by omega)]
    exact ih (k + 1) h.2 (by omega)

/-- A canonical buffer stays so with a lower bound on its addresses. -/
theorem Memory.wfFrom_mono (cap lo lo' : Nat) (m : Memory) (h : Memory.wfFrom cap lo m = true) (hl : lo' ≤ lo) :
    Memory.wfFrom cap lo' m = true := by
  cases m with
  | nil => rfl
  | cons e rest =>
    simp only [Memory.wfFrom, Bool.and_eq_true, decide_eq_true_eq] at h ⊢
    exact ⟨⟨⟨by omega, h.1.1.2⟩, h.1.2⟩, h.2⟩

theorem Memory.wfFrom_entry (cap lo a : Nat) (v : Byte) (m : Memory) (h : Memory.wfFrom cap (a + 1) m = true)
    (hl : lo ≤ a) (hc : a < cap) : Memory.wfFrom cap lo (Memory.entry a v m) = true := by
  unfold Memory.entry
  by_cases hv : v = unlistedByte
  · rw [if_pos hv]
    exact Memory.wfFrom_mono cap (a + 1) lo m h (by omega)
  · simp [hv, Memory.wfFrom, hl, hc, h]

theorem Memory.wfFrom_write (cap lo : Nat) (m : Memory) (a : Nat) (v : Byte) (h : Memory.wfFrom cap lo m = true)
    (hl : lo ≤ a) (hc : a < cap) : Memory.wfFrom cap lo (Memory.write m a v) = true := by
  induction m generalizing lo with
  | nil => exact Memory.wfFrom_entry cap lo a v [] rfl hl hc
  | cons e rest ih =>
    obtain ⟨k, x⟩ := e
    have h0 := h
    simp only [Memory.wfFrom, Bool.and_eq_true, decide_eq_true_eq] at h
    obtain ⟨⟨⟨h1, h2⟩, h3⟩, h4⟩ := h
    simp only [Memory.write]
    split
    · refine Memory.wfFrom_entry cap lo a v _ ?_ hl hc
      simp only [Memory.wfFrom, Bool.and_eq_true, decide_eq_true_eq]
      exact ⟨⟨⟨by omega, h2⟩, h3⟩, h4⟩
    · split
      · rename_i h5
        exact Memory.wfFrom_entry cap lo a v rest (h5 ▸ h4) hl hc
      · simp only [Memory.wfFrom, Bool.and_eq_true, decide_eq_true_eq]
        exact ⟨⟨⟨h1, h2⟩, h3⟩, ih (k + 1) h4 (by omega)⟩

/-- A write inside the capacity keeps the canonical form. -/
theorem Memory.wf_write (cap : Nat) (m : Memory) (a : Nat) (v : Byte) (h : Memory.wf cap m = true) (hc : a < cap) :
    Memory.wf cap (Memory.write m a v) = true := Memory.wfFrom_write cap 0 m a v h (by omega) hc

/-- A read after a write: the byte written at its address, the old byte at every other. -/
theorem Memory.read_write (cap lo : Nat) (m : Memory) (a : Nat) (v : Byte) (x : Nat) (h : Memory.wfFrom cap lo m = true) :
    Memory.read (Memory.write m a v) x = if x = a then v else Memory.read m x := by
  induction m generalizing lo with
  | nil => exact Memory.read_entry a v [] x rfl
  | cons e rest ih =>
    obtain ⟨k, y⟩ := e
    simp only [Memory.wfFrom, Bool.and_eq_true, decide_eq_true_eq] at h
    obtain ⟨⟨⟨h1, h2⟩, h3⟩, h4⟩ := h
    have hb := Memory.read_below cap (k + 1) rest h4
    simp only [Memory.write]
    split
    · refine Memory.read_entry a v _ x ?_
      simp only [Memory.read]
      rw [if_neg (by omega)]
      exact hb a (by omega)
    · split
      · rename_i h5
        subst h5
        rw [Memory.read_entry a v rest x (hb a (by omega))]
        by_cases hx : x = a
        · simp [hx]
        · simp [hx, Memory.read, Ne.symm hx]
      · rename_i h5 h6
        simp only [Memory.read]
        by_cases hx : k = x
        · subst hx
          simp [Ne.symm h6]
        · simp only [if_neg hx]
          exact ih (k + 1) h4

theorem Memory.wf_writeBytes (cap : Nat) (m : Memory) (a : Nat) (bs : List Byte) (h : Memory.wf cap m = true)
    (hc : a + bs.length ≤ cap) : Memory.wf cap (Memory.writeBytes m a bs) = true := by
  induction bs generalizing m a with
  | nil => exact h
  | cons b bs ih =>
    simp only [List.length_cons] at hc
    exact ih _ _ (Memory.wf_write cap m a b h (by omega)) (by omega)

/-- A read after a block write: inside the block the byte of the block, elsewhere the old byte. -/
theorem Memory.read_writeBytes (cap : Nat) (m : Memory) (a : Nat) (bs : List Byte) (x : Nat) (h : Memory.wf cap m = true)
    (hc : a + bs.length ≤ cap) :
    Memory.read (Memory.writeBytes m a bs) x =
      if a ≤ x ∧ x < a + bs.length then bs.getD (x - a) unlistedByte else Memory.read m x := by
  induction bs generalizing m a with
  | nil =>
    rw [if_neg (by simp)]
    rfl
  | cons b bs ih =>
    simp only [List.length_cons] at hc ⊢
    simp only [Memory.writeBytes]
    rw [ih _ _ (Memory.wf_write cap m a b h (by omega)) (by omega), Memory.read_write cap 0 m a b x h]
    by_cases hx : x = a
    · subst hx
      simp
    · by_cases h1 : a ≤ x ∧ x < a + (bs.length + 1)
      · rw [if_pos (by omega), if_pos h1]
        obtain ⟨d, rfl⟩ : ∃ d, x = a + 1 + d := ⟨x - (a + 1), by omega⟩
        simp [show a + 1 + d - a = d + 1 by omega]
      · rw [if_neg (by omega), if_neg h1, if_neg hx]

@[simp] theorem Memory.readBytes_length (m : Memory) (a n : Nat) : (Memory.readBytes m a n).length = n := by
  induction n generalizing a with
  | zero => rfl
  | succ n ih => simp [Memory.readBytes, ih]

theorem Memory.readBytes_getElem? (m : Memory) (a n i : Nat) (h : i < n) :
    (Memory.readBytes m a n)[i]? = some (m.read (a + i)) := by
  induction n generalizing a i with
  | zero => omega
  | succ n ih =>
    cases i with
    | zero => simp [Memory.readBytes]
    | succ i => simp [Memory.readBytes, ih (a + 1) i (by omega), show a + 1 + i = a + (i + 1) by omega]

/-- Reading back a block just written. -/
theorem Memory.readBytes_writeBytes (cap : Nat) (m : Memory) (bs : List Byte) (h : Memory.wf cap m = true)
    (hc : bs.length ≤ cap) : Memory.readBytes (Memory.writeBytes m 0 bs) 0 bs.length = bs := by
  refine List.ext_getElem? fun i => ?_
  by_cases hi : i < bs.length
  · rw [Memory.readBytes_getElem? _ _ _ _ hi, Memory.read_writeBytes cap m 0 bs _ h (by omega), if_pos (by omega)]
    simp [List.getElem?_eq_getElem hi]
  · rw [List.getElem?_eq_none (by simpa using hi), List.getElem?_eq_none (by simpa using hi)]

/-- Canonical buffers that read alike are equal. -/
theorem Memory.ext_of_wf (cap lo : Nat) (m m' : Memory) (h : Memory.wfFrom cap lo m = true)
    (h' : Memory.wfFrom cap lo m' = true) (hr : ∀ a, m.read a = m'.read a) : m = m' := by
  induction m generalizing lo m' with
  | nil =>
    cases m' with
    | nil => rfl
    | cons e rest =>
      obtain ⟨k, x⟩ := e
      have := hr k
      simp [Memory.read] at this
      simp [Memory.wfFrom, ← this] at h'
  | cons e rest ih =>
    obtain ⟨k, x⟩ := e
    simp only [Memory.wfFrom, Bool.and_eq_true, decide_eq_true_eq, bne_iff_ne] at h
    cases m' with
    | nil =>
      have := hr k
      simp only [Memory.read, if_true] at this
      exact absurd this h.1.2
    | cons e' rest' =>
      obtain ⟨k', x'⟩ := e'
      simp only [Memory.wfFrom, Bool.and_eq_true, decide_eq_true_eq, bne_iff_ne] at h'
      have hk : k = k' := by
        rcases Nat.lt_trichotomy k k' with hlt | heq | hgt
        · have := hr k
          simp only [Memory.read, if_true, if_neg (by omega : ¬ k' = k)] at this
          rw [Memory.read_below cap (k' + 1) rest' h'.2 k (by omega)] at this
          exact absurd this h.1.2
        · exact heq
        · have := hr k'
          simp only [Memory.read, if_true, if_neg (by omega : ¬ k = k')] at this
          rw [Memory.read_below cap (k + 1) rest h.2 k' (by omega)] at this
          exact absurd this.symm h'.1.2
      subst hk
      have hx : x = x' := by simpa [Memory.read] using hr k
      subst hx
      rw [ih (k + 1) rest' h.2 h'.2 fun a => ?_]
      by_cases ha : a < k + 1
      · rw [Memory.read_below cap (k + 1) rest h.2 a ha, Memory.read_below cap (k + 1) rest' h'.2 a ha]
      · have := hr a
        simpa only [Memory.read, if_neg (by omega : ¬ k = a)] using this

end Sys2Proof.Machine
end

