-- ==== Sys2Proof/Laws/Scalar.lean ====
section
/-! SUPPORT. What each scalar engine, the CRC check and the lookup can answer. -/

namespace Sys2Proof.Machine

open Sys2Proof.Safety

/-- A padded string is lowercase hexadecimal. -/
theorem lowerHex_hexpad (k v : Nat) : lowerHex (hexpad k v) = true := by
  induction k with
  | zero => rfl
  | succ k ih =>
    simp only [lowerHex, hexpad, List.all_cons, Bool.and_eq_true] at ih ⊢
    refine ⟨?_, ih⟩
    have := hexChar_mem (v / 16 ^ k % 16) (Nat.mod_lt _ (by norm_num))
    simp only [Bool.or_eq_true, Bool.and_eq_true, decide_eq_true_eq]
    exact this

/-- NORM_ADDR of a value in range (R142). -/
theorem normAddr_valid (v : Nat) (h : v ≤ 0xFFFFFF) : normAddr v = .ok { val := BitVec.ofNat 24 v, str := hexpad 6 v } := by
  simp [normAddr, h]

/-- NORM_ADDR of every other integer (R142). -/
theorem normAddr_invalid (v : Int) (h : v < 0 ∨ v > 0xFFFFFF) : normAddr v = .error .valueRange := by
  simp only [normAddr, if_pos h]

/-- Everything NORM_ADDR can answer: an ADDR whose string is its value, or VALUE_RANGE. -/
theorem normAddr_cases (v : Int) :
    (∃ a, normAddr v = .ok a ∧ 0 ≤ v ∧ v ≤ 0xFFFFFF ∧ a.val.toNat = v.toNat ∧ addrOk a = true)
    ∨ (normAddr v = .error .valueRange ∧ (v < 0 ∨ v > 0xFFFFFF)) := by
  by_cases h : v < 0 ∨ v > 0xFFFFFF
  · exact .inr ⟨normAddr_invalid v h, h⟩
  · obtain ⟨n, rfl⟩ : ∃ n : Nat, v = n := ⟨v.toNat, by omega⟩
    refine .inl ⟨_, normAddr_valid n (by omega), by omega, by omega, ?_, ?_⟩
    · simp; omega
    · have hm : n % 16777216 = n := Nat.mod_eq_of_lt (by omega)
      simp [addrOk, BitVec.toNat_ofNat, hm]

theorem text6Loop_append (n v : Nat) (acc : Text) : text6Loop n v acc = text6Loop n v [] ++ acc := by
  induction n generalizing v acc with
  | zero => rfl
  | succ n ih =>
    simp only [text6Loop]
    rw [ih (v >>> 6) (alpha6 (v &&& 0x3F) :: acc), ih (v >>> 6) [alpha6 (v &&& 0x3F)]]
    simp

@[simp] theorem text6Loop_length (n v : Nat) (acc : Text) : (text6Loop n v acc).length = n + acc.length := by
  induction n generalizing v acc with
  | zero => simp [text6Loop]
  | succ n ih => simp [text6Loop, ih]; omega

/-- TEXT6_F gives floor(8n / 6) characters (R150, R151). -/
@[simp] theorem text6F_length (b : List Byte) : (text6F b).length = 8 * b.length / 6 := by simp [text6F]

theorem alpha6_mem (i : Nat) (h : i < 64) : alphabet.contains (alpha6 i) = true := by
  have hl : i < alphabet.length := lt_of_lt_of_le h (by decide)
  simp [alpha6, hl]

theorem text6Loop_overAlphabet (n v : Nat) (acc : Text) (h : overAlphabet acc = true) :
    overAlphabet (text6Loop n v acc) = true := by
  induction n generalizing v acc with
  | zero => exact h
  | succ n ih =>
    refine ih _ _ ?_
    simp only [overAlphabet, List.all_cons, Bool.and_eq_true] at h ⊢
    exact ⟨alpha6_mem _ (lt_of_le_of_lt Nat.and_le_right (by norm_num)), h⟩

/-- TEXT6_F stays in the alphabet (R29, R84). -/
theorem text6F_overAlphabet (b : List Byte) : overAlphabet (text6F b) = true := text6Loop_overAlphabet _ _ _ rfl

/-- Everything ALT_F can answer (R155 to R157, R159). -/
theorem altF_cases (b : List Byte) :
    (∃ a, altF b = .ok a ∧ altitudeOk a = true ∧ beNat b < 4096 ∧ beNat b / 16 % 2 = 1
      ∧ a = ((beNat b / 32 * 4 + beNat b % 16) * 25 : Nat) - 1000)
    ∨ (altF b = .error .unsupportedEncoding ∧ beNat b < 4096 ∧ beNat b / 16 % 2 = 0)
    ∨ (altF b = .error .inputFormat ∧ 4096 ≤ beNat b) := by
  by_cases h : beNat b ≥ 4096
  · exact .inr (.inr ⟨by simp [altF, h], h⟩)
  · have hq : valBits (beNat b) 4 4 = beNat b / 16 % 2 := by simp [valBits, Nat.shiftRight_eq_div_pow]
    have hh : valBits (beNat b) 11 5 = beNat b / 32 := by
      simp only [valBits, Nat.shiftRight_eq_div_pow]
      norm_num
      omega
    have hl : valBits (beNat b) 3 0 = beNat b % 16 := by simp [valBits]
    by_cases h0 : beNat b / 16 % 2 = 0
    · exact .inr (.inl ⟨by simp [altF, h, hq, h0], by omega, h0⟩)
    · refine .inl ⟨((beNat b / 32 * 4 + beNat b % 16) * 25 : Nat) - 1000, ?_, ?_, by omega, by omega, rfl⟩
      · simp only [altF, if_neg h, hq, hh, hl, if_neg h0]
      · simp only [altitudeOk, Bool.and_eq_true, decide_eq_true_eq, beq_iff_eq]
        refine ⟨⟨?_, ?_⟩, ?_⟩ <;> omega

/-- Everything SSTAT_F can answer (R160). -/
theorem sstatF_cases (b : List Byte) :
    (∃ n, sstatF b = .ok n ∧ ssNames.contains n = true ∧ beNat b ≤ 3 ∧ ssNames[beNat b]? = some n)
    ∨ (sstatF b = .error .decodeError ∧ 3 < beNat b) := by
  by_cases h : beNat b ≤ 3
  · have hl : beNat b < ssNames.length := by simp [ssNames]; omega
    refine .inl ⟨ssNames[beNat b], ?_, ?_, h, by simp [hl]⟩
    · simp [sstatF, hl]
    · simp
  · have hl : ssNames.length ≤ beNat b := by simp [ssNames]; omega
    exact .inr ⟨by simp [sstatF, List.getElem?_eq_none hl], by omega⟩

/-- WV_F for an identification type code (R192). -/
theorem wvF_ident (tc cat : Nat) (h1 : 1 ≤ tc) (h2 : tc ≤ 4) (h3 : cat ≤ 7) :
    wvF tc cat = .ok (some (if tc = 1 then ascii "reserved" else wvName tc cat)) := by
  unfold wvF
  rw [if_neg (by omega)]
  by_cases ht : tc = 1
  · simp [ht]
  · rw [if_neg ht, if_neg ht, if_pos (by omega)]

/-- Everything WV_F can answer: INPUT_FORMAT exactly for a category above 7 (R170). -/
theorem wvF_cases (tc cat : Nat) : (∃ o, wvF tc cat = .ok o ∧ cat ≤ 7) ∨ (wvF tc cat = .error .inputFormat ∧ 7 < cat) := by
  unfold wvF
  by_cases h : cat > 7
  · exact .inr ⟨by simp [h], h⟩
  · refine .inl ?_
    simp only [if_neg h]
    split
    · exact ⟨_, rfl, by omega⟩
    · split
      · exact ⟨_, rfl, by omega⟩
      · exact ⟨_, rfl, by omega⟩

/-- The CRC check of 3 bytes or more (R126). -/
theorem crcCheck_valid (t : Vector (BitVec 24) 256) (b : List Byte) (h : 3 ≤ b.length) :
    crcCheck t b = .ok
      { crc := crc24 t (b.take (b.length - 3)), emb := BitVec.ofNat 24 (beNat (b.drop (b.length - 3))),
        matched := matchFlag (crc24 t (b.take (b.length - 3))) (BitVec.ofNat 24 (beNat (b.drop (b.length - 3)))),
        hex := hexlower (crc24 t (b.take (b.length - 3))).toNat } := by
  simp only [crcCheck, if_neg (by omega : ¬ b.length < 3)]

/-- The CRC check of fewer than 3 bytes (R126). -/
theorem crcCheck_short (t : Vector (BitVec 24) 256) (b : List Byte) (h : b.length < 3) :
    crcCheck t b = .error .inputFormat := by simp only [crcCheck, if_pos h]

/-- A CRC value has 1 to 6 lowercase hexadecimal digits (R83). -/
theorem hexlower_crc (c : BitVec 24) :
    lowerHex (hexlower c.toNat) = true ∧ 1 ≤ (hexlower c.toNat).length ∧ (hexlower c.toNat).length ≤ 6 := by
  refine ⟨lowerHex_hexpad _ _, by simp [hexlower], ?_⟩
  have : c.toNat.log2 < 24 := by
    rcases Nat.eq_zero_or_pos c.toNat with h | h
    · simp [h]
    · exact (Nat.log2_lt (by omega)).2 c.isLt
  simp only [hexlower, hexpad_length]
  omega

/-- The parsed frame bytes: half as many as the characters (R201). -/
theorem parseFrameStr_cases (cs : Text) :
    (∃ ds, hexDigits cs = some ds ∧ cs.length % 2 = 0 ∧ parseFrameStr cs = .ok (pairBytes ds)
      ∧ (pairBytes ds).length = cs.length / 2)
    ∨ (parseFrameStr cs = .error .inputFormat ∧ (cs.length % 2 = 1 ∨ hexDigits cs = none)) := by
  unfold parseFrameStr
  by_cases h : cs.length % 2 = 1
  · exact .inr ⟨by simp [h], .inl h⟩
  · cases hd : hexDigits cs with
    | none => exact .inr ⟨by simp [h], .inr rfl⟩
    | some ds =>
      exact .inl ⟨ds, rfl, by omega, by simp [h], by rw [pairBytes_length, hexDigits_length _ _ hd]⟩

/-- Everything PARSE_ADDR_STR can answer: a value, or INPUT_FORMAT (R145). -/
theorem parseAddrStr_cases (cs : Text) : (∃ v, parseAddrStr cs = .ok v) ∨ parseAddrStr cs = .error .inputFormat := by
  unfold parseAddrStr
  split
  · exact .inr rfl
  · split
    · exact .inl ⟨_, rfl⟩
    · exact .inr rfl

end Sys2Proof.Machine
end

