-- ==== Sys2Proof/Laws/Slicer.lean ====
section
/-! SUPPORT. What SLICE_F and FIELD answer: on a valid range the minimal-byte value of the range, otherwise SLICE_RANGE. -/

namespace Sys2Proof.Machine

/-- The value of bits s..e of b, by division (R11). -/
theorem rangeValue_eq (v n d : Nat) : (v >>> d) &&& ((1 <<< n) - 1) = v / 2 ^ d % 2 ^ n := by
  rw [Nat.one_shiftLeft, Nat.and_two_pow_sub_one_eq_mod, Nat.shiftRight_eq_div_pow]

/-- SLICE_F on a valid range (R102). -/
theorem sliceF_valid (b : List Byte) (s e : Nat) (h1 : 1 ≤ s) (h2 : s ≤ e) (h3 : e ≤ 8 * b.length) :
    sliceF b s e = .ok (beBytes ((e - s + 1 + 7) / 8) (beNat b / 2 ^ (8 * b.length - e) % 2 ^ (e - s + 1))) := by
  simp only [sliceF, if_pos (And.intro h1 (And.intro h2 h3)), rangeValue_eq]

/-- SLICE_F on every other range (R101). -/
theorem sliceF_invalid (b : List Byte) (s e : Nat) (h : ¬ (1 ≤ s ∧ s ≤ e ∧ e ≤ 8 * b.length)) :
    sliceF b s e = .error .sliceRange := by
  simp only [sliceF, if_neg h]

/-- Everything SLICE_F can answer: the length and value of a slice of a valid range, or SLICE_RANGE. -/
theorem sliceF_cases (b : List Byte) (s e : Nat) :
    (∃ r, sliceF b s e = .ok r ∧ 1 ≤ s ∧ s ≤ e ∧ e ≤ 8 * b.length ∧ r.length = (e - s + 1 + 7) / 8
      ∧ beNat r = beNat b / 2 ^ (8 * b.length - e) % 2 ^ (e - s + 1))
    ∨ (sliceF b s e = .error .sliceRange ∧ ¬ (1 ≤ s ∧ s ≤ e ∧ e ≤ 8 * b.length)) := by
  by_cases h : 1 ≤ s ∧ s ≤ e ∧ e ≤ 8 * b.length
  · refine .inl ⟨_, sliceF_valid b s e h.1 h.2.1 h.2.2, h.1, h.2.1, h.2.2, beBytes_length _ _, beNat_beBytes_of_lt _ _ ?_⟩
    refine lt_of_lt_of_le (Nat.mod_lt _ (by positivity)) ?_
    rw [show (256 : Nat) = 2 ^ 8 by norm_num, ← pow_mul]
    exact Nat.pow_le_pow_right (by norm_num) (by omega)
  · exact .inr ⟨sliceF_invalid b s e h, h⟩

/-- FIELD on a valid range (R181). -/
theorem field_valid (b : List Byte) (s e : Nat) (h1 : 1 ≤ s) (h2 : s ≤ e) (h3 : e ≤ 8 * b.length) :
    field b s e = .ok (BitVec.ofNat (e - s + 1) (beNat b / 2 ^ (8 * b.length - e))) := by
  rcases sliceF_cases b s e with ⟨r, hr, -, -, -, -, hv⟩ | ⟨-, hn⟩
  · have hf : field b s e = .ok (BitVec.ofNat (e - s + 1) (beNat r)) := by
      simp only [field, hr]; rfl
    rw [hf, hv]
    congr 1
    apply BitVec.eq_of_toNat_eq
    simp
  · exact absurd ⟨h1, h2, h3⟩ hn

end Sys2Proof.Machine
end

