-- ==== Sys2Proof/Laws/Mux.lean ====
section
/-! SUPPORT. What the dispatch can answer: one lemma per layer, from the ME variants up to the frame. -/

namespace Sys2Proof.Machine

open Sys2Proof.Safety

@[simp] theorem except_bind_ok {ε α β : Type} (a : α) (f : α → Except ε β) : (Except.ok a >>= f) = f a := rfl
@[simp] theorem except_bind_error {ε α β : Type} (e : ε) (f : α → Except ε β) : (Except.error e >>= f) = .error e := rfl
@[simp] theorem except_pure {ε α : Type} (a : α) : (pure a : Except ε α) = .ok a := rfl

/-- A slice of an 8-bit-multiple buffer as its bytes: bits 8i+1 to the end are the bytes from i on. -/
theorem sliceF_tail (b : List Byte) (i : Nat) (h : i < b.length) : sliceF b (8 * i + 1) (8 * b.length) = .ok (b.drop i) := by
  rcases sliceF_cases b (8 * i + 1) (8 * b.length) with ⟨r, hr, -, -, -, hl, hv⟩ | ⟨-, hn⟩
  · rw [hr]
    congr 1
    have hd : (b.drop i).length = b.length - i := List.length_drop
    refine beNat_injective (by omega) ?_
    rw [hv, Nat.sub_self, pow_zero, Nat.div_one,
      show 8 * b.length - (8 * i + 1) + 1 = 8 * (b.length - i) by omega]
    have hb : beNat b = beNat (b.take i) * 2 ^ (8 * (b.length - i)) + beNat (b.drop i) := by
      conv_lhs => rw [← List.take_append_drop i b, beNat_append, hd, show (256 : Nat) = 2 ^ 8 by norm_num, ← pow_mul]
    rw [hb, Nat.mul_comm, Nat.mul_add_mod, Nat.mod_eq_of_lt]
    rw [← hd]
    exact beNat_lt_two_pow _
  · exact absurd ⟨by omega, by omega, le_refl _⟩ hn

/-- Identification (R97, R191, R192). -/
theorem identF_eq (tc : BitVec 5) (me : List Byte) (hl : me.length = 7) (h1 : 1 ≤ tc.toNat) (h2 : tc.toNat ≤ 4) :
    identF tc me = .ok (.ident tc (BitVec.ofNat 3 (beNat me / 2 ^ 48)) (text6F (me.drop 1))
      (if tc.toNat = 1 then ascii "reserved" else wvName tc.toNat (BitVec.ofNat 3 (beNat me / 2 ^ 48)).toNat)) := by
  have hs : sliceF me 9 56 = .ok (me.drop 1) := by
    have := sliceF_tail me 1 (by omega)
    rwa [hl] at this
  have hf := field_valid me 6 8 (by omega) (by omega) (by omega)
  rw [hl] at hf
  have hc : (BitVec.ofNat 3 (beNat me / 2 ^ 48)).toNat ≤ 7 := by
    have := (BitVec.ofNat 3 (beNat me / 2 ^ 48)).isLt
    omega
  unfold identF
  simp only [hf, hs, except_bind_ok, Nat.reduceMul, Nat.reduceSub, Nat.reduceAdd, wvF_ident _ _ h1 h2 hc, Option.getD_some,
    except_pure]

/-- Airborne velocity (R99, R191). -/
theorem velocityF_eq (tc : BitVec 5) (me : List Byte) (hl : me.length = 7) :
    velocityF tc me = .ok (.velocity tc (BitVec.ofNat 3 (beNat me / 2 ^ 48)) (BitVec.ofNat 1 (beNat me / 2 ^ 47))
      (BitVec.ofNat 1 (beNat me / 2 ^ 46)) (BitVec.ofNat 3 (beNat me / 2 ^ 43)) (BitVec.ofNat 22 (beNat me / 2 ^ 21))
      (BitVec.ofNat 1 (beNat me / 2 ^ 20)) (BitVec.ofNat 1 (beNat me / 2 ^ 19)) (BitVec.ofNat 9 (beNat me / 2 ^ 10))
      (BitVec.ofNat 2 (beNat me / 2 ^ 8)) (BitVec.ofNat 1 (beNat me / 2 ^ 7)) (BitVec.ofNat 7 (beNat me))) := by
  have hf := fun s e h1 h2 h3 => field_valid me s e h1 h2 h3
  rw [hl] at hf
  unfold velocityF
  rw [hf 6 8 (by omega) (by omega) (by omega), hf 9 9 (by omega) (by omega) (by omega), hf 10 10 (by omega) (by omega) (by omega),
    hf 11 13 (by omega) (by omega) (by omega), hf 14 35 (by omega) (by omega) (by omega), hf 36 36 (by omega) (by omega) (by omega),
    hf 37 37 (by omega) (by omega) (by omega), hf 38 46 (by omega) (by omega) (by omega), hf 47 48 (by omega) (by omega) (by omega),
    hf 49 49 (by omega) (by omega) (by omega), hf 50 56 (by omega) (by omega) (by omega)]
  simp only [except_bind_ok, Nat.reduceMul, Nat.reduceSub, Nat.reduceAdd, pow_zero, Nat.div_one, except_pure]

/-- The altitude field of a position (R98). -/
def altitudeField (me : List Byte) : List Byte := beBytes 2 (beNat me / 2 ^ 36 % 2 ^ 12)

theorem beNat_altitudeField (me : List Byte) : beNat (altitudeField me) = beNat me / 2 ^ 36 % 2 ^ 12 :=
  beNat_beBytes_of_lt _ _ (lt_of_lt_of_le (Nat.mod_lt _ (by norm_num)) (by norm_num))

/-- Airborne position up to its altitude (R98, R191). -/
theorem positionF_eq (tc : BitVec 5) (me : List Byte) (hl : me.length = 7) :
    ∃ ss, ssNames[beNat me / 2 ^ 49 % 4]? = some ss ∧ ssNames.contains ss = true ∧
      positionF tc me = (if tc.toNat ≤ 18 then
          (do let alt ← altF (altitudeField me)
              return .posBaro tc ss (BitVec.ofNat 1 (beNat me / 2 ^ 48)) alt (BitVec.ofNat 1 (beNat me / 2 ^ 35))
                (BitVec.ofNat 1 (beNat me / 2 ^ 34)) (BitVec.ofNat 17 (beNat me / 2 ^ 17)) (BitVec.ofNat 17 (beNat me)))
        else .ok (.posGnss tc ss (BitVec.ofNat 1 (beNat me / 2 ^ 48)) (BitVec.ofNat 12 (beNat me / 2 ^ 36))
            (BitVec.ofNat 1 (beNat me / 2 ^ 35)) (BitVec.ofNat 1 (beNat me / 2 ^ 34)) (BitVec.ofNat 17 (beNat me / 2 ^ 17))
            (BitVec.ofNat 17 (beNat me)))) := by
  have hf := fun s e h1 h2 h3 => field_valid me s e h1 h2 h3
  have hs67 := sliceF_valid me 6 7 (by omega) (by omega) (by omega)
  have hs := sliceF_valid me 9 20 (by omega) (by omega) (by omega)
  rw [hl] at hf hs67 hs
  have hb : beNat (beBytes 1 (beNat me / 2 ^ 49 % 4)) = beNat me / 2 ^ 49 % 4 :=
    beNat_beBytes_of_lt _ _ (lt_of_lt_of_le (Nat.mod_lt _ (by norm_num)) (by norm_num))
  rcases sstatF_cases (beBytes 1 (beNat me / 2 ^ 49 % 4)) with ⟨ss, h1, h2, -, h4⟩ | ⟨-, h3⟩
  · rw [hb] at h4
    refine ⟨ss, h4, h2, ?_⟩
    have hg : (BitVec.ofNat 12 (beNat (altitudeField me)) : BitVec 12) = BitVec.ofNat 12 (beNat me / 2 ^ 36) := by
      rw [beNat_altitudeField]
      apply BitVec.eq_of_toNat_eq
      simp
    rw [← hg]
    unfold positionF
    simp only [Nat.reduceMul, Nat.reduceSub, Nat.reduceAdd, Nat.reduceDiv, Nat.reducePow] at hs67 hs
    rw [hs67, hs]
    simp only [except_bind_ok]
    simp only [Nat.reducePow] at h1
    rw [h1, hf 8 8 (by omega) (by omega) (by omega), hf 21 21 (by omega) (by omega) (by omega),
      hf 22 22 (by omega) (by omega) (by omega), hf 23 39 (by omega) (by omega) (by omega),
      hf 40 56 (by omega) (by omega) (by omega)]
    simp only [except_bind_ok, Nat.reduceMul, Nat.reduceSub, Nat.reduceAdd, Nat.reducePow, Nat.div_one, except_pure,
      altitudeField]
  · rw [hb] at h3
    omega

/-- Everything ME_F can answer on a 7-byte field: a good variant of the TC's row, or UNSUPPORTED_ENCODING for a
barometric position with Q = 0 (R182, R191). -/
theorem meF_cases (me : List Byte) (hl : me.length = 7) :
    (∃ m, meF me = .ok m ∧ meOk m = true ∧ (meTc m).toNat = beNat me / 2 ^ 51 ∧ meTag m = tcTag (beNat me / 2 ^ 51)
      ∧ ¬ (9 ≤ beNat me / 2 ^ 51 ∧ beNat me / 2 ^ 51 ≤ 18 ∧ beNat me / 2 ^ 40 % 2 = 0))
    ∨ (meF me = .error .unsupportedEncoding ∧ 9 ≤ beNat me / 2 ^ 51 ∧ beNat me / 2 ^ 51 ≤ 18 ∧ beNat me / 2 ^ 40 % 2 = 0) := by
  have hlt : beNat me < 2 ^ 56 := by
    have := beNat_lt_two_pow me
    rwa [hl] at this
  have hf := field_valid me 1 5 (by omega) (by omega) (by omega)
  rw [hl] at hf
  have hm : meF me = meByTc (BitVec.ofNat 5 (beNat me / 2 ^ 51)) me := by
    unfold meF
    rw [hf]
    rfl
  have hn : (BitVec.ofNat 5 (beNat me / 2 ^ 51)).toNat = beNat me / 2 ^ 51 := by
    simp only [BitVec.toNat_ofNat]
    omega
  rw [hm]
  have ht : beNat me / 2 ^ 51 < 32 := by omega
  generalize hk : beNat me / 2 ^ 51 = n at *
  generalize htc : BitVec.ofNat 5 n = tc at *
  unfold meByTc tcTag
  simp only [hn]
  by_cases c1 : 1 ≤ n ∧ n ≤ 4
  · rw [if_pos c1, identF_eq tc me hl (by omega) (by omega)]
    refine .inl ⟨_, rfl, ?_, hn, by simp [c1, meTag], by omega⟩
    simp only [meOk, hn, text6F_overAlphabet, text6F_length, List.length_drop, hl]
    simp [c1]
  by_cases c2 : (9 ≤ n ∧ n ≤ 18) ∨ (20 ≤ n ∧ n ≤ 22)
  · obtain ⟨ss, -, hss, hp⟩ := positionF_eq tc me hl
    rw [if_neg c1, if_pos c2, hp, hn]
    by_cases c3 : n ≤ 18
    · rw [if_pos c3]
      have hq : beNat me / 2 ^ 36 % 2 ^ 12 / 16 % 2 = beNat me / 2 ^ 40 % 2 := by omega
      rcases altF_cases (altitudeField me) with ⟨a, ha, hok, -, hq1, -⟩ | ⟨ha, -, hq0⟩ | ⟨-, hbig⟩
      · rw [beNat_altitudeField, hq] at hq1
        rw [ha]
        refine .inl ⟨_, rfl, ?_, hn, by rw [if_neg c1, if_pos (by omega)]; rfl, by omega⟩
        simp only [meOk, hn, hok, hss, Bool.and_true, Bool.and_eq_true, decide_eq_true_eq]
        omega
      · rw [beNat_altitudeField, hq] at hq0
        rw [ha]
        exact .inr ⟨rfl, by omega, by omega, hq0⟩
      · rw [beNat_altitudeField] at hbig
        omega
    · rw [if_neg c3]
      refine .inl ⟨_, rfl, ?_, hn, by rw [if_neg c1, if_neg (by omega), if_neg (by omega), if_pos (by omega)]; rfl, by omega⟩
      simp only [meOk, hn, hss, Bool.and_true, Bool.and_eq_true, decide_eq_true_eq]
      omega
  by_cases c3 : n = 19
  · rw [if_neg c1, if_neg c2, if_pos c3, velocityF_eq tc me hl]
    refine .inl ⟨_, rfl, by simp [meOk, hn, c3], hn, ?_, by omega⟩
    rw [if_neg c1, if_neg (by omega), if_pos c3]
    rfl
  by_cases c4 : 23 ≤ n ∧ n ≤ 27
  · rw [if_neg c1, if_neg c2, if_neg c3, if_pos c4]
    refine .inl ⟨_, rfl, by simp [meOk, hn, c4], hn, ?_, by omega⟩
    rw [if_neg c1, if_neg (by omega), if_neg c3, if_neg (by omega), if_pos c4]
    rfl
  by_cases c5 : n = 28
  · rw [if_neg c1, if_neg c2, if_neg c3, if_neg c4, if_pos c5]
    refine .inl ⟨_, rfl, by simp [meOk, hn, c5], hn, ?_, by omega⟩
    rw [if_neg c1, if_neg (by omega), if_neg c3, if_neg (by omega), if_neg c4, if_pos c5]
    rfl
  by_cases c6 : n = 29
  · rw [if_neg c1, if_neg c2, if_neg c3, if_neg c4, if_neg c5, if_pos c6]
    refine .inl ⟨_, rfl, by simp [meOk, hn, c6], hn, ?_,
      by omega⟩
    rw [if_neg c1, if_neg (by omega), if_neg c3, if_neg (by omega), if_neg c4, if_neg c5, if_pos c6]
    rfl
  by_cases c7 : n = 31
  · rw [if_neg c1, if_neg c2, if_neg c3, if_neg c4, if_neg c5, if_neg c6, if_pos c7]
    refine .inl ⟨_, rfl, by simp [meOk, hn, c7],
      hn, ?_, by omega⟩
    rw [if_neg c1, if_neg (by omega), if_neg c3, if_neg (by omega), if_neg c4, if_neg c5, if_neg c6, if_pos c7]
    rfl
  · rw [if_neg c1, if_neg c2, if_neg c3, if_neg c4, if_neg c5, if_neg c6, if_neg c7]
    refine .inl ⟨_, rfl, ?_, hn, ?_, by omega⟩
    · have hr : (BitVec.ofNat 56 (beNat me)).toNat / 2 ^ 51 = n := by
        simp only [BitVec.toNat_ofNat]
        omega
      simp only [meOk, hn, hr, beq_self_eq_true, Bool.and_true, Bool.or_eq_true, Bool.and_eq_true, decide_eq_true_eq, beq_iff_eq]
      omega
    · rw [if_neg c1, if_neg (by omega), if_neg c3, if_neg (by omega), if_neg c4, if_neg c5, if_neg c6, if_neg c7]
      rfl

/-- A passthrough is good for its mode and DF (R196). -/
theorem passF_ok (mode : Mode) (df : BitVec 5) (d : List Byte)
    (h : (mode = .short ∧ d.length = 3) ∨ (mode = .extended ∧ d.length = 7 ∧ df.toNat ≠ 17)) :
    payloadOk mode df (passF d) = true := by
  rcases h with ⟨rfl, hd⟩ | ⟨rfl, hd, hn⟩
  · simp [payloadOk, passF, lowerHex_hexpad, hd]
  · simp [payloadOk, passF, lowerHex_hexpad, hd, hn]

/-- The value of an ME field in an extended frame, bits 33..88 (R92). -/
theorem beNat_meOf (b : List Byte) (hl : b.length = 14) :
    ((b.drop 4).take 7).length = 7 ∧ beNat ((b.drop 4).take 7) = beNat b / 2 ^ 24 % 2 ^ 56 := by
  have h4 : (b.drop 4).length = 10 := by simp [hl]
  refine ⟨by simp [hl], ?_⟩
  have h1 : beNat b = beNat (b.take 4) * 2 ^ 80 + beNat (b.drop 4) := by
    conv_lhs => rw [← List.take_append_drop 4 b, beNat_append, h4]
    norm_num
  have h2 : beNat (b.drop 4) = beNat ((b.drop 4).take 7) * 2 ^ 24 + beNat ((b.drop 4).drop 7) := by
    conv_lhs => rw [← List.take_append_drop 7 (b.drop 4), beNat_append]
    simp [hl]
  have h3 := beNat_lt_two_pow ((b.drop 4).take 7)
  have h5 := beNat_lt_two_pow ((b.drop 4).drop 7)
  have e3 : ((b.drop 4).take 7).length = 7 := by simp [hl]
  have e5 : ((b.drop 4).drop 7).length = 3 := by simp [hl]
  rw [e3] at h3
  rw [e5] at h5
  omega

/-- SLICE_F of the ME field of an extended frame is bytes 4 to 10 (R92). -/
theorem sliceF_me (b : List Byte) (hl : b.length = 14) : sliceF b 33 88 = .ok ((b.drop 4).take 7) := by
  obtain ⟨h1, h2⟩ := beNat_meOf b hl
  rcases sliceF_cases b 33 88 with ⟨r, hr, -, -, -, hlen, hv⟩ | ⟨-, hn⟩
  · rw [hr]
    congr 1
    refine beNat_injective (by rw [hlen, h1]) ?_
    rw [hv, h2, hl]
  · exact absurd ⟨by omega, by omega, by omega⟩ hn

/-- SLICE_F of the DATA field of a short frame is bytes 4 to 6 (R91). -/
theorem sliceF_data (b : List Byte) (hl : b.length = 7) : sliceF b 33 56 = .ok (b.drop 4) := by
  have := sliceF_tail b 4 (by omega)
  rwa [hl] at this

/-- The address field of a frame (R91, R92, R182): NORM_ADDR of 24 bits does not fail. -/
theorem normAddr_field (x : BitVec 24) : normAddr x.toNat = .ok { val := x, str := hexpad 6 x.toNat } := by
  have := x.isLt
  rw [normAddr_valid x.toNat (by omega)]
  simp

/-- The record of a frame from its parts (R199). -/
def recordOf (t : Vector (BitVec 24) 256) (mode : Mode) (b : List Byte) (p : Payload) : FrameRecord :=
  let v := beNat b / 2 ^ (8 * b.length - 32)
  let c := crc24 t (b.take (b.length - 3))
  { len := b.length, mode := mode, df := BitVec.ofNat 5 (v / 2 ^ 27), ca := BitVec.ofNat 3 (v / 2 ^ 24),
    aa := { val := BitVec.ofNat 24 v, str := hexpad 6 (v % 2 ^ 24) },
    crcMatch := matchFlag c (BitVec.ofNat 24 (beNat (b.drop (b.length - 3)))), crcHex := hexlower c.toNat, payload := p }

/-- FRAME_F of a short frame (R197, R199). -/
theorem frameF_short (t : Vector (BitVec 24) 256) (b : List Byte) (hl : b.length = 7) :
    frameF t b = .ok (recordOf t .short b (passF (b.drop 4))) := by
  have hf := fun s e h1 h2 h3 => field_valid b s e h1 h2 h3
  rw [hl] at hf
  unfold frameF frameOf
  rw [if_pos hl, crcCheck_valid t b (by omega), hf 1 5 (by omega) (by omega) (by omega), hf 6 8 (by omega) (by omega) (by omega),
    hf 9 32 (by omega) (by omega) (by omega), sliceF_data b hl]
  simp only [except_bind_ok]
  rw [normAddr_field]
  simp only [except_bind_ok, sqF, except_pure, recordOf, hl, Nat.reduceMul, Nat.reduceSub, Nat.reduceAdd, BitVec.toNat_ofNat,
    Nat.div_div_eq_div_mul, Nat.reducePow]

/-- FRAME_F of an extended frame (R197, R199): the payload of its DF, or the ME field's error. -/
theorem frameF_extended (t : Vector (BitVec 24) 256) (b : List Byte) (hl : b.length = 14) :
    frameF t b = (do
      let p ← if beNat b / 2 ^ 107 = 17 then (do let m ← meF ((b.drop 4).take 7); return .mepay m)
        else .ok (passF ((b.drop 4).take 7))
      return recordOf t .extended b p) := by
  have hf := fun s e h1 h2 h3 => field_valid b s e h1 h2 h3
  rw [hl] at hf
  have hlt := beNat_lt_two_pow b
  rw [hl] at hlt
  have hdf : (BitVec.ofNat 5 (beNat b / 2 ^ 107)).toNat = beNat b / 2 ^ 107 := by
    simp only [BitVec.toNat_ofNat]
    omega
  unfold frameF frameOf
  rw [if_neg (by omega), if_pos hl, crcCheck_valid t b (by omega), hf 1 5 (by omega) (by omega) (by omega),
    hf 6 8 (by omega) (by omega) (by omega), hf 9 32 (by omega) (by omega) (by omega), sliceF_me b hl]
  simp only [except_bind_ok]
  rw [normAddr_field]
  simp only [except_bind_ok, sqF, except_pure, recordOf, hl, Nat.reduceMul, Nat.reduceSub, Nat.reduceAdd, BitVec.toNat_ofNat,
    Nat.div_div_eq_div_mul, Nat.reducePow] at hdf ⊢
  rw [hdf]
  split <;> rfl

/-- A record built from a good payload is good. -/
theorem recordOf_ok (t : Vector (BitVec 24) 256) (mode : Mode) (b : List Byte) (p : Payload)
    (hm : (mode = .short ∧ b.length = 7) ∨ (mode = .extended ∧ b.length = 14))
    (hp : payloadOk mode (BitVec.ofNat 5 (beNat b / 2 ^ (8 * b.length - 32) / 2 ^ 27)) p = true) :
    frameOk (recordOf t mode b p) = true := by
  have hc := hexlower_crc (crc24 t (b.take (b.length - 3)))
  unfold frameOk recordOf
  simp only [hp, hc.1, hc.2.1, hc.2.2, addrOk, BitVec.toNat_ofNat]
  rcases hm with ⟨rfl, hl⟩ | ⟨rfl, hl⟩ <;> simp [hl]

/-- Everything FRAME_F can answer (R182, R197, R199, R203). -/
theorem frameF_cases (t : Vector (BitVec 24) 256) (b : List Byte) :
    (∃ r, frameF t b = .ok r ∧ frameOk r = true ∧ (b.length = 7 ∨ b.length = 14) ∧ r.len = b.length ∧ ¬ grayFrame b)
    ∨ (frameF t b = .error .unsupportedEncoding ∧ grayFrame b)
    ∨ (frameF t b = .error .inputFormat ∧ b.length ≠ 7 ∧ b.length ≠ 14) := by
  by_cases h7 : b.length = 7
  · refine .inl ⟨_, frameF_short t b h7, recordOf_ok t .short b _ (.inl ⟨rfl, h7⟩) ?_, .inl h7, rfl, fun h => by have := h.1; omega⟩
    exact passF_ok _ _ _ (.inl ⟨rfl, by simp [h7]⟩)
  by_cases h14 : b.length = 14
  · obtain ⟨hl, hv⟩ := beNat_meOf b h14
    have hlt := beNat_lt_two_pow b
    rw [h14] at hlt
    have e1 : beNat b / 2 ^ (8 * b.length - 32) / 2 ^ 27 = beNat b / 2 ^ 107 := by
      rw [h14, Nat.div_div_eq_div_mul]
      norm_num
    have hdf : (BitVec.ofNat 5 (beNat b / 2 ^ 107)).toNat = beNat b / 2 ^ 107 := by
      simp only [BitVec.toNat_ofNat]
      omega
    rw [frameF_extended t b h14]
    by_cases h17 : beNat b / 2 ^ 107 = 17
    · rw [if_pos h17]
      have e2 : beNat ((b.drop 4).take 7) / 2 ^ 51 = beNat b / 2 ^ 75 % 2 ^ 5 := by rw [hv]; omega
      have e3 : beNat ((b.drop 4).take 7) / 2 ^ 40 % 2 = beNat b / 2 ^ 64 % 2 := by rw [hv]; omega
      rcases meF_cases _ hl with ⟨m, hm, hok, -, -, hn⟩ | ⟨hm, hn⟩
      · rw [hm]
        refine .inl ⟨_, rfl, recordOf_ok t .extended b _ (.inr ⟨rfl, h14⟩) ?_, .inr h14, rfl, fun h => hn ?_⟩
        · rw [e1]
          simp only [payloadOk, h17, hok]
          rfl
        · rw [e2, e3]
          exact h.2.2
      · rw [hm]
        refine .inr (.inl ⟨rfl, h14, h17, ?_⟩)
        rw [← e2, ← e3]
        exact hn
    · rw [if_neg h17]
      refine .inl ⟨_, rfl, recordOf_ok t .extended b _ (.inr ⟨rfl, h14⟩) ?_, .inr h14, rfl, fun h => h17 h.2.1⟩
      refine passF_ok _ _ _ (.inr ⟨rfl, hl, ?_⟩)
      rw [e1, hdf]
      exact h17
  · exact .inr (.inr ⟨by simp only [frameF, if_neg h7, if_neg h14], h7, h14⟩)

end Sys2Proof.Machine
end

