-- ==== Sys2Proof/Laws/State.lean ====
section
/-! SUPPORT. One lemma per field per update of State, so that no proof unfolds a record update. -/

namespace Sys2Proof.Machine

/-! `State.loadBuf` -/

@[simp] theorem State.loadBuf_buf (s : State) (bs : List Byte) : (s.loadBuf bs).buf = s.buf.writeBytes 0 (bs.take Config.bufMax) := rfl
@[simp] theorem State.loadBuf_bufLen (s : State) (bs : List Byte) : (s.loadBuf bs).bufLen = ⟨min bs.length Config.bufMax, by omega⟩ := rfl
@[simp] theorem State.loadBuf_str (s : State) (bs : List Byte) : (s.loadBuf bs).str = s.str := rfl
@[simp] theorem State.loadBuf_strLen (s : State) (bs : List Byte) : (s.loadBuf bs).strLen = s.strLen := rfl
@[simp] theorem State.loadBuf_ival (s : State) (bs : List Byte) : (s.loadBuf bs).ival = s.ival := rfl
@[simp] theorem State.loadBuf_ivalW (s : State) (bs : List Byte) : (s.loadBuf bs).ivalW = s.ivalW := rfl
@[simp] theorem State.loadBuf_crcTable (s : State) (bs : List Byte) : (s.loadBuf bs).crcTable = s.crcTable := rfl
@[simp] theorem State.loadBuf_tblValid (s : State) (bs : List Byte) : (s.loadBuf bs).tblValid = s.tblValid := rfl
@[simp] theorem State.loadBuf_status (s : State) (bs : List Byte) : (s.loadBuf bs).status = s.status := rfl
@[simp] theorem State.loadBuf_result (s : State) (bs : List Byte) : (s.loadBuf bs).result = s.result := rfl
@[simp] theorem State.loadBuf_port (s : State) (bs : List Byte) : (s.loadBuf bs).port = s.port := rfl
@[simp] theorem State.loadBuf_hostReads (s : State) (bs : List Byte) : (s.loadBuf bs).hostReads = s.hostReads := rfl

/-! `State.loadStr` -/

@[simp] theorem State.loadStr_buf (s : State) (cs : Text) : (s.loadStr cs).buf = s.buf := rfl
@[simp] theorem State.loadStr_bufLen (s : State) (cs : Text) : (s.loadStr cs).bufLen = s.bufLen := rfl
@[simp] theorem State.loadStr_str (s : State) (cs : Text) : (s.loadStr cs).str = s.str.writeBytes 0 (cs.take Config.strMax) := rfl
@[simp] theorem State.loadStr_strLen (s : State) (cs : Text) : (s.loadStr cs).strLen = ⟨min cs.length Config.strMax, by omega⟩ := rfl
@[simp] theorem State.loadStr_ival (s : State) (cs : Text) : (s.loadStr cs).ival = s.ival := rfl
@[simp] theorem State.loadStr_ivalW (s : State) (cs : Text) : (s.loadStr cs).ivalW = s.ivalW := rfl
@[simp] theorem State.loadStr_crcTable (s : State) (cs : Text) : (s.loadStr cs).crcTable = s.crcTable := rfl
@[simp] theorem State.loadStr_tblValid (s : State) (cs : Text) : (s.loadStr cs).tblValid = s.tblValid := rfl
@[simp] theorem State.loadStr_status (s : State) (cs : Text) : (s.loadStr cs).status = s.status := rfl
@[simp] theorem State.loadStr_result (s : State) (cs : Text) : (s.loadStr cs).result = s.result := rfl
@[simp] theorem State.loadStr_port (s : State) (cs : Text) : (s.loadStr cs).port = s.port := rfl
@[simp] theorem State.loadStr_hostReads (s : State) (cs : Text) : (s.loadStr cs).hostReads = s.hostReads := rfl

/-! `State.loadIval` -/

@[simp] theorem State.loadIval_buf (s : State) (v : BitVec 64) : (s.loadIval v).buf = s.buf := rfl
@[simp] theorem State.loadIval_bufLen (s : State) (v : BitVec 64) : (s.loadIval v).bufLen = s.bufLen := rfl
@[simp] theorem State.loadIval_str (s : State) (v : BitVec 64) : (s.loadIval v).str = s.str := rfl
@[simp] theorem State.loadIval_strLen (s : State) (v : BitVec 64) : (s.loadIval v).strLen = s.strLen := rfl
@[simp] theorem State.loadIval_ival (s : State) (v : BitVec 64) : (s.loadIval v).ival = v := rfl
@[simp] theorem State.loadIval_ivalW (s : State) (v : BitVec 64) : (s.loadIval v).ivalW = true := rfl
@[simp] theorem State.loadIval_crcTable (s : State) (v : BitVec 64) : (s.loadIval v).crcTable = s.crcTable := rfl
@[simp] theorem State.loadIval_tblValid (s : State) (v : BitVec 64) : (s.loadIval v).tblValid = s.tblValid := rfl
@[simp] theorem State.loadIval_status (s : State) (v : BitVec 64) : (s.loadIval v).status = s.status := rfl
@[simp] theorem State.loadIval_result (s : State) (v : BitVec 64) : (s.loadIval v).result = s.result := rfl
@[simp] theorem State.loadIval_port (s : State) (v : BitVec 64) : (s.loadIval v).port = s.port := rfl
@[simp] theorem State.loadIval_hostReads (s : State) (v : BitVec 64) : (s.loadIval v).hostReads = s.hostReads := rfl

/-! `State.complete` -/

@[simp] theorem State.complete_buf (s : State) (x : Result) : (s.complete x).buf = s.buf := rfl
@[simp] theorem State.complete_bufLen (s : State) (x : Result) : (s.complete x).bufLen = s.bufLen := rfl
@[simp] theorem State.complete_str (s : State) (x : Result) : (s.complete x).str = s.str := rfl
@[simp] theorem State.complete_strLen (s : State) (x : Result) : (s.complete x).strLen = s.strLen := rfl
@[simp] theorem State.complete_ival (s : State) (x : Result) : (s.complete x).ival = s.ival := rfl
@[simp] theorem State.complete_ivalW (s : State) (x : Result) : (s.complete x).ivalW = s.ivalW := rfl
@[simp] theorem State.complete_crcTable (s : State) (x : Result) : (s.complete x).crcTable = s.crcTable := rfl
@[simp] theorem State.complete_tblValid (s : State) (x : Result) : (s.complete x).tblValid = s.tblValid := rfl
@[simp] theorem State.complete_status (s : State) (x : Result) : (s.complete x).status = okCode := rfl
@[simp] theorem State.complete_result (s : State) (x : Result) : (s.complete x).result = x := rfl
@[simp] theorem State.complete_port (s : State) (x : Result) : (s.complete x).port = s.port := rfl
@[simp] theorem State.complete_hostReads (s : State) (x : Result) : (s.complete x).hostReads = s.hostReads := rfl

/-! `State.raise` -/

@[simp] theorem State.raise_buf (s : State) (e : Err) : (s.raise e).buf = s.buf := rfl
@[simp] theorem State.raise_bufLen (s : State) (e : Err) : (s.raise e).bufLen = s.bufLen := rfl
@[simp] theorem State.raise_str (s : State) (e : Err) : (s.raise e).str = s.str := rfl
@[simp] theorem State.raise_strLen (s : State) (e : Err) : (s.raise e).strLen = s.strLen := rfl
@[simp] theorem State.raise_ival (s : State) (e : Err) : (s.raise e).ival = s.ival := rfl
@[simp] theorem State.raise_ivalW (s : State) (e : Err) : (s.raise e).ivalW = s.ivalW := rfl
@[simp] theorem State.raise_crcTable (s : State) (e : Err) : (s.raise e).crcTable = s.crcTable := rfl
@[simp] theorem State.raise_tblValid (s : State) (e : Err) : (s.raise e).tblValid = s.tblValid := rfl
@[simp] theorem State.raise_status (s : State) (e : Err) : (s.raise e).status = errCode e := rfl
@[simp] theorem State.raise_result (s : State) (e : Err) : (s.raise e).result = .none := rfl
@[simp] theorem State.raise_port (s : State) (e : Err) : (s.raise e).port = s.port := rfl
@[simp] theorem State.raise_hostReads (s : State) (e : Err) : (s.raise e).hostReads = s.hostReads := rfl

/-! `State.withPort` -/

@[simp] theorem State.withPort_buf (s : State) (p : List PortEvent) : (s.withPort p).buf = s.buf := rfl
@[simp] theorem State.withPort_bufLen (s : State) (p : List PortEvent) : (s.withPort p).bufLen = s.bufLen := rfl
@[simp] theorem State.withPort_str (s : State) (p : List PortEvent) : (s.withPort p).str = s.str := rfl
@[simp] theorem State.withPort_strLen (s : State) (p : List PortEvent) : (s.withPort p).strLen = s.strLen := rfl
@[simp] theorem State.withPort_ival (s : State) (p : List PortEvent) : (s.withPort p).ival = s.ival := rfl
@[simp] theorem State.withPort_ivalW (s : State) (p : List PortEvent) : (s.withPort p).ivalW = s.ivalW := rfl
@[simp] theorem State.withPort_crcTable (s : State) (p : List PortEvent) : (s.withPort p).crcTable = s.crcTable := rfl
@[simp] theorem State.withPort_tblValid (s : State) (p : List PortEvent) : (s.withPort p).tblValid = s.tblValid := rfl
@[simp] theorem State.withPort_status (s : State) (p : List PortEvent) : (s.withPort p).status = s.status := rfl
@[simp] theorem State.withPort_result (s : State) (p : List PortEvent) : (s.withPort p).result = s.result := rfl
@[simp] theorem State.withPort_port (s : State) (p : List PortEvent) : (s.withPort p).port = p := rfl
@[simp] theorem State.withPort_hostReads (s : State) (p : List PortEvent) : (s.withPort p).hostReads = s.hostReads := rfl

/-! `State.resetBlock` -/

@[simp] theorem State.resetBlock_buf (s : State) : (s.resetBlock).buf = [] := rfl
@[simp] theorem State.resetBlock_bufLen (s : State) : (s.resetBlock).bufLen = 0 := rfl
@[simp] theorem State.resetBlock_str (s : State) : (s.resetBlock).str = [] := rfl
@[simp] theorem State.resetBlock_strLen (s : State) : (s.resetBlock).strLen = 0 := rfl
@[simp] theorem State.resetBlock_ival (s : State) : (s.resetBlock).ival = 0#64 := rfl
@[simp] theorem State.resetBlock_ivalW (s : State) : (s.resetBlock).ivalW = false := rfl
@[simp] theorem State.resetBlock_crcTable (s : State) : (s.resetBlock).crcTable = tableInit := rfl
@[simp] theorem State.resetBlock_tblValid (s : State) : (s.resetBlock).tblValid = true := rfl
@[simp] theorem State.resetBlock_status (s : State) : (s.resetBlock).status = 0x00#8 := rfl
@[simp] theorem State.resetBlock_result (s : State) : (s.resetBlock).result = .none := rfl
@[simp] theorem State.resetBlock_port (s : State) : (s.resetBlock).port = s.port := rfl
@[simp] theorem State.resetBlock_hostReads (s : State) : (s.resetBlock).hostReads = s.hostReads := rfl

/-! `State.conclude` -/

@[simp] theorem State.conclude_ok (s : State) (x : Result) : s.conclude (.ok x) = s.complete x := rfl
@[simp] theorem State.conclude_error (s : State) (e : Err) : s.conclude (.error e) = s.raise e := rfl

/-! Updates that meet. -/

@[simp] theorem State.withPort_withPort (s : State) (p q : List PortEvent) : (s.withPort p).withPort q = s.withPort q := rfl
@[simp] theorem State.withPort_self (s : State) : s.withPort s.port = s := rfl
@[simp] theorem State.issue_port (s : State) (w : Word) : (s.issue w).port = .command w :: s.port := rfl

/-- A command's end forgets the STATUS and RESULT before it (R223, R256). -/
theorem State.complete_forgets (s : State) (st : BitVec 8) (r x : Result) :
    ({ s with status := st, result := r } : State).complete x = s.complete x := rfl

theorem State.raise_forgets (s : State) (st : BitVec 8) (r : Result) (e : Err) :
    ({ s with status := st, result := r } : State).raise e = s.raise e := rfl

end Sys2Proof.Machine
end

