-- ==== Sys2Proof/Laws/Exec.lean ====
section
/-! SUPPORT. Everything a command can do, said once: it completes, it raises an error, SLICEB also replaces BUF,
and ADDRI with IVAL unwritten is a model fault, the only stop. -/

namespace Sys2Proof.Machine

/-- How `finish` ends: the result of the function, or its error. -/
theorem finish_cases (s : State) (r : Except Err Result) :
    (∃ x, r = .ok x ∧ finish s r = .next (s.complete x)) ∨ (∃ e, r = .error e ∧ finish s r = .next (s.raise e)) := by
  cases r with
  | ok x => exact .inl ⟨x, rfl, rfl⟩
  | error e => exact .inr ⟨e, rfl, rfl⟩

/-- The four ways a command can end. -/
inductive CommandEnd (i : Instr) (s : State) : Host.Outcome State Fault Refusal → Prop where
  | completed (x : Result) : CommandEnd i s (.next (s.complete x))
  | raised (e : Err) : CommandEnd i s (.next (s.raise e))
  | replaced (a b : BitVec 8) (r : List Byte) (hi : i = .sliceb a b)
      (hr : sliceF (bufOperand s) (immediate a) (immediate b) = .ok r) :
      CommandEnd i s (.next ((s.loadBuf r).complete (.bytes r)))
  | unwritten (hi : i = .addri) (hw : s.ivalW = false) : CommandEnd i s (.fault .unwrittenIval)

theorem CommandEnd.of_finish {i : Instr} {s : State} (r : Except Err Result) : CommandEnd i s (finish s r) := by
  rcases finish_cases s r with ⟨x, -, hx⟩ | ⟨e, -, he⟩
  · exact hx ▸ .completed x
  · exact he ▸ .raised e

/-- The inversion of `exec`: every command ends in one of the four ways. -/
theorem exec_end (i : Instr) (s : State) : CommandEnd i s (exec i s) := by
  cases i with
  | sliceb a b =>
    show CommandEnd _ s (execSliceb a b s)
    unfold execSliceb
    split
    · rename_i r hr
      exact .replaced a b r rfl hr
    · exact .raised _
  | addri =>
    show CommandEnd _ s (execAddri s)
    unfold execAddri
    split
    · exact .of_finish _
    · rename_i hw
      exact .unwritten rfl (by simpa using hw)
  | nop => exact .of_finish (.ok .none)
  | slice a b => exact .of_finish _
  | crctab k => exact .of_finish (.ok (.nat (tableAt s.crcTable k).toNat))
  | crcgen =>
    let c := crc24 s.crcTable (bufOperand s)
    exact .of_finish (.ok (.crc c none none (hexlower c.toNat)))
  | crcchk => exact .of_finish _
  | uint => exact .of_finish (.ok (.nat (beNat (bufOperand s))))
  | addrb => exact .of_finish _
  | addrs => exact .of_finish _
  | text6 => exact .of_finish (.ok (.text (text6F (bufOperand s))))
  | altb => exact .of_finish _
  | sstat => exact .of_finish _
  | wvcat tc cat => exact .of_finish _
  | decme => exact .of_finish _
  | decfr => exact .of_finish _
  | decfrs => exact .of_finish _

/-- A command stops exactly when it is an ADDRI with IVAL unwritten. -/
theorem exec_fault_iff {i : Instr} {s : State} {f : Fault} : exec i s = .fault f ↔ i = .addri ∧ s.ivalW = false := by
  constructor
  · intro h
    have hend := exec_end i s
    rw [h] at hend
    cases hend with
    | unwritten hi hw => exact ⟨hi, hw⟩
  · rintro ⟨rfl, hw⟩
    cases f
    show execAddri s = _
    simp [execAddri, hw, modelFault]

@[simp] theorem bufOperand_length (s : State) : (bufOperand s).length = s.bufLen.val := by simp [bufOperand]
@[simp] theorem strOperand_length (s : State) : (strOperand s).length = s.strLen.val := by simp [strOperand]

theorem bufOperand_length_le (s : State) : (bufOperand s).length ≤ Config.bufMax := by
  have := s.bufLen.isLt
  rw [bufOperand_length]
  omega

/-- A slice of BUF fits BUF. -/
theorem slice_fits {s : State} {a b : Nat} {r : List Byte} (h : sliceF (bufOperand s) a b = .ok r) :
    1 ≤ r.length ∧ r.length ≤ Config.bufMax := by
  have hl := bufOperand_length_le s
  rcases sliceF_cases (bufOperand s) a b with ⟨r', hr, h1, h2, h3, h4, -⟩ | ⟨hr, -⟩
  · rw [h] at hr
    cases hr
    simp only [Config.bufMax] at hl ⊢
    omega
  · rw [h] at hr
    cases hr

/-- What loading BUF does: the operand is what was loaded, bytes above it stay, the canonical form is kept. -/
theorem State.loadBuf_spec (s : State) (bs : List Byte) (hw : Memory.wf Config.bufMax s.buf = true)
    (hl : bs.length ≤ Config.bufMax) :
    bufOperand (s.loadBuf bs) = bs ∧ (s.loadBuf bs).bufLen.val = bs.length
      ∧ Memory.wf Config.bufMax (s.loadBuf bs).buf = true
      ∧ ∀ a, bs.length ≤ a → (s.loadBuf bs).buf.read a = s.buf.read a := by
  have ht : bs.take Config.bufMax = bs := List.take_of_length_le hl
  have hm : min bs.length Config.bufMax = bs.length := min_eq_left hl
  refine ⟨?_, hm, ?_, fun a ha => ?_⟩
  · simp only [bufOperand, State.loadBuf_buf, State.loadBuf_bufLen, ht, hm]
    exact Memory.readBytes_writeBytes _ _ _ hw hl
  · simp only [State.loadBuf_buf, ht]
    exact Memory.wf_writeBytes _ _ _ _ hw (by omega)
  · simp only [State.loadBuf_buf, ht]
    rw [Memory.read_writeBytes _ _ _ _ _ hw (by omega), if_neg (by omega)]

/-- What loading STR does. -/
theorem State.loadStr_spec (s : State) (cs : Text) (hw : Memory.wf Config.strMax s.str = true)
    (hl : cs.length ≤ Config.strMax) :
    strOperand (s.loadStr cs) = cs ∧ (s.loadStr cs).strLen.val = cs.length
      ∧ Memory.wf Config.strMax (s.loadStr cs).str = true
      ∧ ∀ a, cs.length ≤ a → (s.loadStr cs).str.read a = s.str.read a := by
  have ht : cs.take Config.strMax = cs := List.take_of_length_le hl
  have hm : min cs.length Config.strMax = cs.length := min_eq_left hl
  refine ⟨?_, hm, ?_, fun a ha => ?_⟩
  · simp only [strOperand, State.loadStr_str, State.loadStr_strLen, ht, hm]
    exact Memory.readBytes_writeBytes _ _ _ hw hl
  · simp only [State.loadStr_str, ht]
    exact Memory.wf_writeBytes _ _ _ _ hw (by omega)
  · simp only [State.loadStr_str, ht]
    rw [Memory.read_writeBytes _ _ _ _ _ hw (by omega), if_neg (by omega)]

end Sys2Proof.Machine
end

