-- ==== Sys2Proof/Laws/PerInstr.lean ====
section
/-! SUPPORT. Per command: its word carries its opcode and its immediates in the fields of R60, with C = 0 (R61). -/

namespace Sys2Proof.Laws.Words

/-- The fields of a command's word. -/
def Statement (i : Instr) : Prop :=
  cField (encode i) = 0#8 ∧ opField (encode i) = opcode i ∧ aField (encode i) = immA i ∧ bField (encode i) = immB i

theorem fields (i : Instr) : Statement i :=
  ⟨cField_wordOf _ _ _, opField_wordOf _ _ _, aField_wordOf _ _ _, bField_wordOf _ _ _⟩

theorem nop : Statement (.nop) := fields _
theorem slice (s e : BitVec 8) : Statement (.slice s e) := fields _
theorem sliceb (s e : BitVec 8) : Statement (.sliceb s e) := fields _
theorem crctab (k : BitVec 8) : Statement (.crctab k) := fields _
theorem crcgen : Statement (.crcgen) := fields _
theorem crcchk : Statement (.crcchk) := fields _
theorem uint : Statement (.uint) := fields _
theorem addrb : Statement (.addrb) := fields _
theorem addri : Statement (.addri) := fields _
theorem addrs : Statement (.addrs) := fields _
theorem text6 : Statement (.text6) := fields _
theorem altb : Statement (.altb) := fields _
theorem sstat : Statement (.sstat) := fields _
theorem wvcat (tc cat : BitVec 8) : Statement (.wvcat tc cat) := fields _
theorem decme : Statement (.decme) := fields _
theorem decfr : Statement (.decfr) := fields _
theorem decfrs : Statement (.decfrs) := fields _

end Sys2Proof.Laws.Words
end

