-- ==== Sys2Proof/Laws/Step.lean ====
section
/-! SUPPORT. What a step does, by the event at the port. -/

namespace Sys2Proof.Machine

/-- With no event a step is the idle step. -/
theorem step_idle {s : State} (h : s.port = []) : step s = runIdle s := by
  simp [step, fetch, h]

/-- With a host action first a step is that action. -/
theorem step_host {s : State} {a : HostAction} {rest : List PortEvent}
    (h : s.port = .host a :: rest) : step s = runAction a (s.withPort rest) := by
  simp [step, fetch, h]

/-- With a command word first a step is what the decoder makes of it. -/
theorem step_command {s : State} {w : Word} {rest : List PortEvent}
    (h : s.port = .command w :: rest) :
    step s = match decode w with
      | .ok i => exec i (s.withPort rest)
      | .error _ => runIllegal (s.withPort rest) := by
  simp only [step, fetch, h, fetchWord]
  cases decode w <;> rfl

/-- A word placed at the port is the next one the block takes. -/
theorem step_issue (s : State) (w : Word) :
    step (s.issue w) = match decode w with
      | .ok i => exec i s
      | .error _ => runIllegal s := by
  have := step_command (s := s.issue w) (w := w) (rest := s.port) rfl
  rwa [show (s.issue w).withPort s.port = s from rfl] at this

/-- A step stops with a fault only on an ADDRI with IVAL unwritten. -/
theorem step_fault {s : State} {f : Fault} (h : step s = .fault f) :
    ∃ w rest, s.port = .command w :: rest ∧ decode w = .ok .addri ∧ s.ivalW = false := by
  cases hp : s.port with
  | nil => rw [step_idle hp] at h; cases h
  | cons ev rest =>
    cases ev with
    | command w =>
      rw [step_command hp] at h
      cases hd : decode w with
      | ok i =>
        rw [hd] at h
        have h' : exec i (s.withPort rest) = .fault f := h
        obtain ⟨hi, hw⟩ := exec_fault_iff.mp h'
        exact ⟨w, rest, rfl, by rw [hd, hi], hw⟩
      | error e => rw [hd] at h; cases h
    | host a =>
      rw [step_host hp] at h
      cases a <;> simp only [runAction] at h <;> (try split at h) <;> cases h

end Sys2Proof.Machine
end

