-- ==== Sys2Proof/Tests/Slice0.lean ====
section
/-! SUPPORT. Tests: the word checks, words of the spec decoded, one step per instruction with results from
95_test_vectors.md (the vector's name is in each comment), and a witness for the hypotheses of every statement. -/

namespace Sys2Proof.Tests

open Sys2Proof.Machine Sys2Proof.Safety Sys2Proof.Claims

/-- Bytes from numbers. -/
def bytes (xs : List Nat) : List Byte := xs.map (BitVec.ofNat 8)

/-- The state right after reset with BUF loaded. -/
def withBuf (xs : List Nat) : State := State.reset.loadBuf (bytes xs)

/-- The state right after reset with STR loaded. -/
def withStr (cs : String) : State := State.reset.loadStr (ascii cs)

/-- The state right after reset with IVAL written. -/
def withIval (v : Int) : State := State.reset.loadIval (BitVec.ofInt 64 v)

/-- The state right after reset with the given events at the port. -/
def withEvents (p : List PortEvent) : State := State.reset.withPort p

/-- The frame of V-FR-1. -/
def frame1 : List Nat := [0x8D, 0x48, 0x40, 0xD6, 0x20, 0x2C, 0xC3, 0x71, 0xC3, 0x2C, 0xE0, 0x57, 0x60, 0x98]

/-- STATUS and RESULT after one command word. -/
def outcome (s : State) (w : Word) : Option (BitVec 8 × Result) :=
  match step (s.issue w) with
  | .next t => some (t.status, t.result)
  | .fault _ => none
  | .refused _ => none

/-- BUF[0..BUF_LEN) after one command word. -/
def bufAfter (s : State) (w : Word) : Option (List Byte) :=
  match step (s.issue w) with
  | .next t => some (bufOperand t)
  | .fault _ => none
  | .refused _ => none

/-! ## The word checks: an illegal word for each, refused, and a legal word for all -/

theorem test_wf_c : legalC 0x01040101#32 = false ∧ legalOp 0x01040101#32 = true ∧ legalImm 0x01040101#32 = true := by decide
theorem test_wf_op : legalOp 0x00000003#32 = false ∧ legalOp 0x00000017#32 = false ∧ legalOp 0x000000FF#32 = false
    ∧ legalC 0x00000003#32 = true ∧ legalImm 0x00000003#32 = true := by decide
theorem test_wf_imm : legalImm 0x00000100#32 = false ∧ legalImm 0x00010008#32 = false ∧ legalImm 0x00010020#32 = false
    ∧ legalC 0x00000100#32 = true ∧ legalOp 0x00000100#32 = true := by decide
theorem test_wf_legal : legalWord 0x00582102#32 = true ∧ legalWord 0x0000FF08#32 = true ∧ legalWord 0x00000031#32 = true
    ∧ legalWord 0x01040101#32 = false ∧ legalWord 0x00000032#32 = false ∧ legalWord 0x00000109#32 = false := by decide

/-! ## Decoding: a word of every constructor, written out from R60, R62 and R63 -/

theorem test_decode_slicer : decode 0x00000000#32 = .ok .nop ∧ decode 0x000D0401#32 = .ok (.slice 4 13)
    ∧ decode 0x000D0402#32 = .ok (.sliceb 4 13) := by decide
theorem test_decode_crc : decode 0x0000FF08#32 = .ok (.crctab 0xFF) ∧ decode 0x00000009#32 = .ok .crcgen
    ∧ decode 0x0000000A#32 = .ok .crcchk := by decide
theorem test_decode_scalar : decode 0x00000010#32 = .ok .uint ∧ decode 0x00000011#32 = .ok .addrb
    ∧ decode 0x00000012#32 = .ok .addri ∧ decode 0x00000013#32 = .ok .addrs ∧ decode 0x00000014#32 = .ok .text6
    ∧ decode 0x00000015#32 = .ok .altb ∧ decode 0x00000016#32 = .ok .sstat := by decide
theorem test_decode_lookup : decode 0x00080418#32 = .ok (.wvcat 4 8) := by decide
theorem test_decode_dispatch : decode 0x00000020#32 = .ok .decme ∧ decode 0x00000030#32 = .ok .decfr
    ∧ decode 0x00000031#32 = .ok .decfrs := by decide
theorem test_decode_rejects : decode 0x00000017#32 = .error (.reservedOp 0x17#8) ∧ decode 0x01000000#32 = .error .reservedC
    ∧ decode 0x00010008#32 = .error .immediateNotZero ∧ decode 0x00000109#32 = .error .immediateNotZero := by decide
theorem test_table_word : decodeTableWord 32 0x00582102 = some (.sliceb 33 88) ∧ decodeTableWord 32 0x01000000 = none := by decide

/-! ## One step per instruction -/

/-- V-IL-1, and V-IL-2. -/
theorem test_nop : outcome (withBuf [0x01]) 0x00000000#32 = some (0x00#8, .none)
    ∧ outcome (withBuf [0x01]) 0x00000100#32 = some (0x06#8, .none) := by decide
/-- V-SL-2: ten bits across two bytes. -/
theorem test_slice_crosses_bytes :
    outcome (withBuf [0xF0, 0x0F]) 0x000D0401#32 = some (0x00#8, .bytes [0x02#8, 0x01#8]) := by decide
/-- V-SL-7, V-SL-8, V-SL-9 and V-SL-15. -/
theorem test_slice_errors : outcome (withBuf [0xF0, 0x0F]) 0x00040001#32 = some (0x04#8, .none)
    ∧ outcome (withBuf [0xF0, 0x0F]) 0x00040501#32 = some (0x04#8, .none)
    ∧ outcome (withBuf [0xF0, 0x0F]) 0x00110101#32 = some (0x04#8, .none)
    ∧ outcome (withBuf [0xF0, 0x0F]) 0x01040101#32 = some (0x06#8, .none) := by decide
/-- V-SL-13. -/
theorem test_sliceb : bufAfter (withBuf [0xF0, 0x0F]) 0x000D0402#32 = some [0x02#8, 0x01#8] := by decide
/-- V-SL-14: BUF unchanged on an error. -/
theorem test_sliceb_error : bufAfter (withBuf [0xF0, 0x0F]) 0x00110102#32 = some [0xF0#8, 0x0F#8]
    ∧ outcome (withBuf [0xF0, 0x0F]) 0x00110102#32 = some (0x04#8, .none) := by decide
/-- V-CRC-4 and V-CRC-25. -/
theorem test_crctab : outcome State.reset 0x0000FF08#32 = some (0x00#8, .nat 0xFA0480)
    ∧ outcome State.reset 0x00010008#32 = some (0x06#8, .none) := by decide +kernel
/-- V-CRC-19: five digits, unpadded. -/
theorem test_crcgen : outcome (withBuf [0x01, 0x00]) 0x00000009#32
    = some (0x00#8, .crc 0x0E0D80#24 none none (ascii "e0d80")) := by decide +kernel
/-- V-CRC-9 and V-CRC-12. -/
theorem test_crcchk : outcome (withBuf [0x5D, 0x48, 0x40, 0xD6, 0xF8, 0x74, 0x0E]) 0x0000000A#32
      = some (0x00#8, .crc 0xF8740F#24 (some 0xF8740E#24) (some false) (ascii "f8740f"))
    ∧ outcome (withBuf [0x00, 0x00]) 0x0000000A#32 = some (0x01#8, .none) := by decide +kernel
/-- V-UI-3 and V-UI-1. -/
theorem test_uint : outcome (withBuf [0x01, 0x00]) 0x00000010#32 = some (0x00#8, .nat 256)
    ∧ outcome (withBuf []) 0x00000010#32 = some (0x00#8, .nat 0) := by decide
/-- V-AD-3 and V-AD-4. -/
theorem test_addrb : outcome (withBuf [0x00, 0xAB, 0xCD, 0xEF]) 0x00000011#32
      = some (0x00#8, .addr { val := 0xABCDEF#24, str := ascii "abcdef" })
    ∧ outcome (withBuf [0x01, 0x00, 0x00, 0x00]) 0x00000011#32 = some (0x02#8, .none) := by decide +kernel
/-- V-AD-9, V-AD-10 and V-AD-11. -/
theorem test_addri : outcome (withIval 0xFFFFFF) 0x00000012#32
      = some (0x00#8, .addr { val := 0xFFFFFF#24, str := ascii "ffffff" })
    ∧ outcome (withIval (-1)) 0x00000012#32 = some (0x02#8, .none)
    ∧ outcome (withIval 0x1000000) 0x00000012#32 = some (0x02#8, .none) := by decide +kernel
/-- V-AD-12: a model fault, no hardware outcome. -/
theorem test_addri_unwritten : step (State.reset.withFetchWord 32 0x12) = .fault .unwrittenIval := rfl
/-- V-AD-17. -/
theorem test_addrs : outcome (withStr "0001abcd") 0x00000013#32
    = some (0x00#8, .addr { val := 0x01ABCD#24, str := ascii "01abcd" }) := by decide +kernel
/-- V-AD-19, V-AD-20, V-AD-25 and V-AD-26. -/
theorem test_addrs_errors : outcome (withStr "1000000") 0x00000013#32 = some (0x02#8, .none)
    ∧ outcome (withStr "0x") 0x00000013#32 = some (0x01#8, .none) ∧ outcome (withStr "0x0x1") 0x00000013#32 = some (0x01#8, .none)
    ∧ outcome (withStr "0x1000000g") 0x00000013#32 = some (0x01#8, .none) := by decide +kernel
/-- V-T6-6 and V-T6-3. -/
theorem test_text6 : outcome (withBuf [0x04, 0x20, 0xC4, 0x14, 0x61, 0xCB]) 0x00000014#32 = some (0x00#8, .text (ascii "ABCDEFGK"))
    ∧ outcome (withBuf [0xFF]) 0x00000014#32 = some (0x00#8, .text (ascii "?")) := by decide +kernel
/-- V-AL-2: the multiplier is 4, not 16. -/
theorem test_altb : outcome (withBuf [0x0C, 0x38]) 0x00000015#32 = some (0x00#8, .sint 8900) := by decide +kernel
/-- V-AL-8 and V-AL-10. -/
theorem test_altb_errors : outcome (withBuf [0x0F, 0xEF]) 0x00000015#32 = some (0x03#8, .none)
    ∧ outcome (withBuf [0x10, 0x00]) 0x00000015#32 = some (0x01#8, .none) := by decide +kernel
/-- V-SS-3 and V-SS-5. -/
theorem test_sstat : outcome (withBuf [0x02]) 0x00000016#32 = some (0x00#8, .name (ascii "temporary alert"))
    ∧ outcome (withBuf [0x04]) 0x00000016#32 = some (0x05#8, .none) := by decide +kernel
/-- V-WV-4, V-WV-8 and V-WV-12. -/
theorem test_wvcat : outcome State.reset 0x00050118#32 = some (0x00#8, .optname (some (ascii "reserved")))
    ∧ outcome State.reset 0x00000518#32 = some (0x00#8, .optname none)
    ∧ outcome State.reset 0x00080118#32 = some (0x01#8, .none) := by decide +kernel
/-- V-WV-6: the name is the free value. -/
theorem test_wvcat_name : outcome State.reset 0x00070318#32 = some (0x00#8, .optname (some (Config.wvName 1 7))) := rfl
/-- V-ME-34 and V-ME-42. -/
theorem test_decme_ident : outcome (withBuf [0x0A, 0x2C, 0xC3, 0x71, 0xC3, 0x2C, 0xE0]) 0x00000020#32
      = some (0x00#8, .me (.ident 1#5 2#3 (ascii "KLM1023 ") (ascii "reserved")))
    ∧ outcome (withBuf [0x99, 0x44, 0x09, 0x94, 0x08, 0x38]) 0x00000020#32 = some (0x01#8, .none) := by decide +kernel
/-- V-ME-39. -/
theorem test_decme_velocity : outcome (withBuf [0x99, 0x44, 0x09, 0x94, 0x08, 0x38, 0x17]) 0x00000020#32
    = some (0x00#8, .me (.velocity 19#5 1#3 0#1 1#1 0#3 2116768#22 0#1 1#1 14#9 0#2 0#1 23#7)) := by decide +kernel
/-- V-FR-5. -/
theorem test_decfr_short : outcome (withBuf [0x5D, 0x48, 0x40, 0xD6, 0xF8, 0x74, 0x0E]) 0x00000030#32
    = some (0x00#8, .frame
        { len := 7, mode := .short, df := 11#5, ca := 5#3, aa := { val := 0x4840D6#24, str := ascii "4840d6" },
          crcMatch := false, crcHex := ascii "f8740f", payload := .passthrough (ascii "f8740e") }) := by decide +kernel
/-- V-FR-9 and V-FR-12. -/
theorem test_decfr_errors : outcome (withBuf [0x8D, 0x40, 0x62, 0x1D, 0x58, 0xC2, 0x82, 0xD6, 0x90, 0xC8, 0xAC, 0x28, 0x63, 0xA7])
      0x00000030#32 = some (0x03#8, .none)
    ∧ outcome (withBuf [0x8D, 0x48, 0x40, 0xD6, 0x20, 0x2C]) 0x00000030#32 = some (0x01#8, .none) := by decide +kernel
/-- The frame of V-FR-7 as a hexadecimal string in mixed case (V-FS-3 for the case rule). -/
theorem test_decfrs : outcome (withStr "9040621d58C382D690c8ac2863A7") 0x00000031#32
    = some (0x00#8, .frame
        { len := 14, mode := .extended, df := 18#5, ca := 0#3, aa := { val := 0x40621D#24, str := ascii "40621d" },
          crcMatch := false, crcHex := ascii "556f52", payload := .passthrough (ascii "58c382d690c8ac") }) := by decide +kernel

/-! ## The host's two questions, and the source lines -/

theorem test_fetch_word : State.reset.withFetchWord 32 0x00050118 = State.reset.issue 0x00050118#32 := rfl
/-- R67: a number is decimal or hexadecimal; R62: an immediate is 8 bits; R68: `.buf` and `.str` are bounded. -/
theorem test_source_lines : assembleLine "WVCAT 0x4, 3" = some [.command 0x00030418#32] ∧ assembleLine "SLICE 1, 256" = none
    ∧ assembleLine ".str \"0xAB;\"" = some [.host (.writeStr (ascii "0xAB;"))] ∧ assembleLine "SLICEM 1, 4;" = none
    ∧ assembleLine "NOP 1" = none ∧ assembleLine "; a comment" = some [] := by decide +kernel

/-! ## Witnesses: a state and operands that meet the hypotheses of each statement, clause by clause -/

theorem witness_ResetBetweenCommands : (withEvents [.host .reset, .command 0#32]).port = .host .reset :: [.command 0#32] := rfl
theorem witness_IdleBlockKeepsEveryRegister : (withBuf [0x01]).port = [] := rfl
theorem witness_StepRunsTheDecodedCommand : (withEvents [.command 0x00070318#32]).port = .command 0x00070318#32 :: []
    ∧ decode 0x00070318#32 = .ok (.wvcat 3 7) := by decide
/-- One word for each of the four ways to be illegal, at the ends of the reserved ranges of OP. -/
theorem witness_IllegalWordsEndWithStatusSix : cField 0xFF000000#32 ≠ 0#8
    ∧ ([0x03#32, 0x07#32, 0x0B#32, 0x0F#32, 0x17#32, 0x19#32, 0x1F#32, 0x21#32, 0x2F#32, 0x32#32, 0xFF#32].all fun w =>
      decide (opField w ∉ [0x00#8, 0x01#8, 0x02#8, 0x08#8, 0x09#8, 0x0A#8, 0x10#8, 0x11#8, 0x12#8, 0x13#8, 0x14#8, 0x15#8,
        0x16#8, 0x18#8, 0x20#8, 0x30#8, 0x31#8])) = true
    ∧ (opField 0x00010008#32 = 0x08#8 ∧ bField 0x00010008#32 ≠ 0#8)
    ∧ (opField 0x00010031#32 ∉ [0x01#8, 0x02#8, 0x08#8, 0x18#8] ∧ (aField 0x00010031#32 ≠ 0#8 ∨ bField 0x00010031#32 ≠ 0#8))
    ∧ (opField 0x00000100#32 ∉ [0x01#8, 0x02#8, 0x08#8, 0x18#8] ∧ (aField 0x00000100#32 ≠ 0#8 ∨ bField 0x00000100#32 ≠ 0#8)) := by
  decide +kernel
theorem witness_EncodeOfDecode : decode 0x00FFFF02#32 = .ok (.sliceb 0xFF 0xFF) := by decide
/-- Writes of 0 and of the full capacity. -/
theorem witness_HostActionsBetweenCommands :
    ((withEvents [.host (.writeBuf (bytes frame1))]).port = .host (.writeBuf (bytes frame1)) :: [] ∧ (bytes frame1).length ≤ 14
      ∧ Memory.wf 14 State.reset.buf = true ∧ Memory.wf 14 (withBuf frame1).buf = true ∧ ([] : List Byte).length ≤ 14)
    ∧ ((withEvents [.host (.writeStr (List.replicate 32 0x41#8))]).port = .host (.writeStr (List.replicate 32 0x41#8)) :: []
      ∧ (List.replicate 32 0x41#8).length ≤ 32 ∧ Memory.wf 32 State.reset.str = true ∧ Memory.wf 32 (withStr "0xab").str = true)
    ∧ (withEvents [.host (.writeIval 0#64)]).port = .host (.writeIval 0#64) :: []
    ∧ ((withEvents [.command 0x10#32]).port = .command 0x10#32 :: [] ∧ decode 0x10#32 = .ok .uint
      ∧ decode 0x17#32 = .error (.reservedOp 0x17#8))
    ∧ (withEvents [.host .readResult]).port = .host .readResult :: [] := by decide
theorem witness_OverlongHostWritesAreRefused :
    ((withEvents [.host (.writeBuf (List.replicate 15 0#8))]).port = .host (.writeBuf (List.replicate 15 0#8)) :: []
      ∧ 14 < (List.replicate 15 0#8 : List Byte).length)
    ∧ (withEvents [.host (.writeStr (List.replicate 33 0#8))]).port = .host (.writeStr (List.replicate 33 0#8)) :: []
      ∧ 32 < (List.replicate 33 0#8 : Text).length := by decide

/-- For every command with one word only, another word of its OP (`SoleWord`): NOP, CRCGEN, CRCCHK, the scalar engines, DECME,
DECFR and DECFRS. -/
theorem witness_SoleWord : ([0x00#32, 0x09#32, 0x0A#32, 0x10#32, 0x11#32, 0x12#32, 0x13#32, 0x14#32, 0x15#32, 0x16#32, 0x20#32,
    0x30#32, 0x31#32].all fun w => decide (opField (w ||| 0x00010000#32) = opField w ∧ w ||| 0x00010000#32 ≠ w)) = true := by
  decide +kernel
/-- For SLICE, SLICEB and WVCAT, a word of the OP with C not 0 (`TwoImmediateWord`). -/
theorem witness_TwoImmediateWord : (opField 0x01040101#32 = 0x01#8 ∧ cField 0x01040101#32 ≠ 0#8)
    ∧ (opField 0x80000002#32 = 0x02#8 ∧ cField 0x80000002#32 ≠ 0#8) ∧ opField 0xFF000018#32 = 0x18#8
    ∧ cField 0xFF000018#32 ≠ 0#8 := by decide
/-- Ranges at both ends of a 16-bit buffer; each way a range is invalid; an empty buffer. -/
theorem witness_SliceExtractsTheRange :
    (1 ≤ (1#8).toNat ∧ (1#8).toNat ≤ (16#8).toNat ∧ (16#8).toNat ≤ 8 * (withBuf [0xF0, 0x0F]).bufLen.val)
    ∧ (1 ≤ (16#8).toNat ∧ (16#8).toNat ≤ (16#8).toNat ∧ (16#8).toNat ≤ 8 * (withBuf [0xF0, 0x0F]).bufLen.val)
    ∧ ¬ (1 ≤ (0#8).toNat ∧ (0#8).toNat ≤ (4#8).toNat ∧ (4#8).toNat ≤ 8 * (withBuf [0xF0, 0x0F]).bufLen.val)
    ∧ ¬ (1 ≤ (5#8).toNat ∧ (5#8).toNat ≤ (4#8).toNat ∧ (4#8).toNat ≤ 8 * (withBuf [0xF0, 0x0F]).bufLen.val)
    ∧ ¬ (1 ≤ (1#8).toNat ∧ (1#8).toNat ≤ (17#8).toNat ∧ (17#8).toNat ≤ 8 * (withBuf [0xF0, 0x0F]).bufLen.val)
    ∧ ¬ (1 ≤ (1#8).toNat ∧ (1#8).toNat ≤ (1#8).toNat ∧ (1#8).toNat ≤ 8 * State.reset.bufLen.val)
    ∧ ((112#8).toNat = 8 * (withBuf frame1).bufLen.val ∧ 1 ≤ (withBuf frame1).bufLen.val)
    ∧ bufOperand (withBuf [0xF0, 0x0F]) = [0xF0#8, 0x0F#8] := by decide
theorem witness_SlicebReplacesBuf :
    (Memory.wf 14 (withBuf frame1).buf = true ∧ 1 ≤ (33#8).toNat ∧ (33#8).toNat ≤ (88#8).toNat
      ∧ (88#8).toNat ≤ 8 * (withBuf frame1).bufLen.val ∧ (112#8).toNat ≤ 8 * (withBuf frame1).bufLen.val)
    ∧ ¬ (1 ≤ (1#8).toNat ∧ (1#8).toNat ≤ (113#8).toNat ∧ (113#8).toNat ≤ 8 * (withBuf frame1).bufLen.val)
    ∧ bufOperand (withBuf frame1) = [0x8D#8, 0x48#8, 0x40#8, 0xD6#8, 0x20#8, 0x2C#8, 0xC3#8, 0x71#8, 0xC3#8, 0x2C#8, 0xE0#8,
      0x57#8, 0x60#8, 0x98#8] := by decide
theorem witness_BitOneIsTheTopBitOfByteZero : ([0xF0#8, 0x0F#8] : List Byte)[0]? = some 0xF0#8
    ∧ ([0xF0#8, 0x0F#8] : List Byte)[1]? = some 0x0F#8 ∧ 0 < 8 ∧ 7 < 8 := by decide
theorem witness_RangesAreSlicedIndependently :
    ∃ p ∈ [(1, 4), (16, 17)], ¬ (1 ≤ p.1 ∧ p.1 ≤ p.2 ∧ p.2 ≤ 8 * ([0xF0#8, 0x0F#8] : List Byte).length) := by decide
/-- The layout of an extended frame (R92) tiles 112 bits, and the empty list of ranges the empty buffer. -/
theorem witness_TilingRangesReproduceTheBuffer :
    Tiles (8 * (bytes frame1).length) 1 [(1, 5), (6, 8), (9, 32), (33, 88), (89, 112)]
    ∧ Tiles (8 * ([] : List Byte).length) 1 [] :=
  ⟨⟨rfl, by decide, rfl, by decide, rfl, by decide, rfl, by decide, rfl, by decide, rfl⟩, rfl⟩
theorem witness_CrctabReadsOneEntry : (opField 0x00010008#32 = 0x08#8 ∧ bField 0x00010008#32 ≠ 0#8)
    ∧ (opField 0x01000008#32 = 0x08#8 ∧ cField 0x01000008#32 ≠ 0#8) ∧ (withBuf [0x01]).crcTable = State.reset.crcTable :=
  ⟨by decide, by decide, rfl⟩
theorem witness_CrcIsLinear : ([0x01#8, 0x80#8] : List Byte).length = ([0xFF#8, 0x00#8] : List Byte).length := rfl
theorem witness_AppendedCrcGivesZero : (withBuf frame1).crcTable = tableInit ∧ ∃ t, exec .crcchk (withBuf frame1) = .next t
    ∧ t.result = .crc 0x576098#24 (some 0x576098#24) (some true) (ascii "576098") := ⟨rfl, _, rfl, by decide +kernel⟩
theorem witness_CrcgenRunsOverBuf : (withBuf []).bufLen = 0 ∧ (withBuf []).crcTable = tableInit
    ∧ bufOperand (withBuf [0x00, 0x00, 0x80]) = List.replicate 2 0x00#8 ++ [0x80#8]
    ∧ bufOperand (withBuf [0x01, 0xFF, 0xF4, 0x09]) = [0x01#8] ++ beBytes 3 (crcLoop tableInit [0x01#8])
    ∧ bufOperand (withBuf [0x5D, 0x48, 0x40, 0xD6]) = [0x5D#8, 0x48#8, 0x40#8, 0xD6#8] :=
  ⟨rfl, rfl, by decide, by decide +kernel, by decide⟩
theorem witness_CrcchkComparesTheLastThreeBytes : 3 ≤ (withBuf frame1).bufLen.val ∧ (withBuf [0x00, 0x00]).bufLen.val < 3
    ∧ (withBuf [0x00, 0x00, 0x00]).bufLen.val = 3 ∧ (withBuf [0x00, 0x00, 0x01]).bufLen.val = 3
    ∧ (withBuf frame1).crcTable = tableInit ∧ bufOperand (withBuf frame1) = [0x8D#8, 0x48#8, 0x40#8, 0xD6#8, 0x20#8, 0x2C#8,
      0xC3#8, 0x71#8, 0xC3#8, 0x2C#8, 0xE0#8, 0x57#8, 0x60#8, 0x98#8] :=
  ⟨by decide, by decide, by decide, by decide, rfl, by decide⟩
theorem witness_HexFormsReadBack : (0 : Nat) < 16 ^ 0 ∧ 0xFFFFFF < 16 ^ 6 ∧ (1 : Nat) ≠ 0 := by decide
theorem witness_UintIsTheBigEndianSum : (withBuf []).bufLen = 0
    ∧ bufOperand (withBuf (List.replicate 14 0xFF)) = List.replicate 14 0xFF#8
    ∧ bufOperand (withBuf [0x00, 0x01]) = List.replicate 1 0x00#8 ++ [0x01#8]
    ∧ bufOperand (withBuf [0xAB, 0xCD, 0xEF]) = [0xAB#8, 0xCD#8, 0xEF#8] := by decide
theorem witness_AddrbNormalisesBuf : beNat (bufOperand (withBuf [0xFF, 0xFF, 0xFF])) ≤ 0xFFFFFF
    ∧ 0xFFFFFF < beNat (bufOperand (withBuf [0x01, 0x00, 0x00, 0x00])) ∧ (withBuf [0xAB, 0xCD, 0xEF]).bufLen.val ≤ 3
    ∧ bufOperand (withBuf [0xAB, 0xCD, 0xEF]) = [0xAB#8, 0xCD#8, 0xEF#8] := by decide
theorem witness_AddriNormalisesIval :
    ((withIval 0xFFFFFF).ivalW = true ∧ (withIval 0xFFFFFF).ival.toInt = (0xFFFFFF : Nat) ∧ 0xFFFFFF ≤ 0xFFFFFF)
    ∧ ((withIval (-1)).ivalW = true ∧ (withIval (-1)).ival.toInt < 0)
    ∧ ((withIval 0x1000000).ivalW = true ∧ 0xFFFFFF < (withIval 0x1000000).ival.toInt)
    ∧ State.reset.ivalW = false ∧ (withIval 1).ivalW = true ∧ (withIval 1).ival = 1#64 := by decide
/-- An ADDRI right after reset; after a write of IVAL it is no model fault, nor is another command before it. -/
theorem witness_OnlyUnwrittenAddriIsAModelFault : step (State.reset.issue 0x12#32) = .fault .unwrittenIval
    ∧ ((State.reset.issue 0x12#32).port = .command 0x12#32 :: [] ∧ (State.reset.issue 0x12#32).ivalW = false)
    ∧ (∃ t, step ((withIval 0).issue 0x12#32) = .next t) ∧ ∃ t, step (State.reset.issue 0x11#32) = .next t :=
  ⟨rfl, ⟨rfl, rfl⟩, ⟨_, rfl⟩, _, rfl⟩
/-- From reset, a NOP and then an ADDRI: a run of two steps has faulted, a run of one step stands before the ADDRI. -/
theorem witness_NoRunPassesAModelFault :
    Sys2Proof.core.run 2 (withEvents [.command 0x00#32, .command 0x12#32]) = .fault Fault.unwrittenIval
    ∧ ∃ t : State, Sys2Proof.core.run 1 (withEvents [.command 0x00#32, .command 0x12#32]) = .next t
      ∧ t.port = .command 0x12#32 :: [] ∧ t.ivalW = false := ⟨rfl, _, rfl, rfl, rfl⟩
/-- Values at the ends of the range, in range and out, with each prefix. -/
theorem witness_AddrsParsesTheGrammar :
    (strOperand (withStr "0xffFFFF") = ascii "0x" ++ ascii "ffFFFF" ∧ ascii "0x" ∈ [[], ascii "0x", ascii "0X"]
      ∧ hexDigits (ascii "ffFFFF") = some [15, 15, 15, 15, 15, 15] ∧ digitsNat [15, 15, 15, 15, 15, 15] ≤ 0xFFFFFF)
    ∧ (strOperand (withStr "1000000") = [] ++ ascii "1000000" ∧ hexDigits (ascii "1000000") = some [1, 0, 0, 0, 0, 0, 0]
      ∧ 0xFFFFFF < digitsNat [1, 0, 0, 0, 0, 0, 0])
    ∧ strOperand (withStr "abcdef") = ascii "abcdef" := by decide
/-- A bare prefix has no digits after any mark. -/
theorem witness_AddrsParsesTheGrammar_malformed : ∀ (mark cs : Text) (ds : List Nat), strOperand (withStr "0x") = mark ++ cs →
    mark ∈ [[], ascii "0x", ascii "0X"] → hexDigits cs = some ds → ds = [] := by
  intro mark cs ds h hm hd
  have h' : ([0x30#8, 0x78#8] : Text) = mark ++ cs := h
  simp only [List.mem_cons, List.not_mem_nil, or_false] at hm
  rcases hm with rfl | rfl | rfl
  · have : cs = [0x30#8, 0x78#8] := h'.symm
    rw [this] at hd
    exact absurd hd (by rw [show hexDigits [0x30#8, 0x78#8] = none from rfl]; exact nofun)
  · have : cs = [] := (List.append_cancel_left (as := ascii "0x") (bs := []) h').symm
    rw [this] at hd
    exact (Option.some.inj hd).symm
  · exact absurd (congrArg (fun t => t[1]?) h') (by simp [ascii])
theorem witness_AddressFormsAgree : 0xFFFFFF ≤ 0xFFFFFF ∧ bufOperand (withBuf [0xFF, 0xFF, 0xFF]) = beBytes 3 0xFFFFFF
    ∧ (withIval 0xFFFFFF).ivalW = true ∧ (withIval 0xFFFFFF).ival.toInt = (0xFFFFFF : Nat)
    ∧ strOperand (withStr "ffffff") = hexpad 6 0xFFFFFF := by decide
theorem witness_Text6DecodesBuf : (withBuf []).bufLen = 0
    ∧ bufOperand (withBuf [0x2C, 0xC3, 0x71, 0xC3, 0x2C, 0xE0]) = [0x2C#8, 0xC3#8, 0x71#8, 0xC3#8, 0x2C#8, 0xE0#8] := by decide
/-- The first and the last character of a 14-byte buffer. -/
theorem witness_Text6OrderLaw : ∃ t : Text, exec .text6 (withBuf frame1) = .next (ended (withBuf frame1) 0x00#8 (.text t))
    ∧ 0 < t.length ∧ 17 < t.length := ⟨_, rfl, by decide⟩
theorem witness_AltbScalesTheField :
    ((127 : Nat) < 128 ∧ (15 : Nat) < 16 ∧ beNat (bufOperand (withBuf [0x0F, 0xFF])) = 127 * 32 + 16 + 15)
    ∧ beNat (bufOperand (withBuf [0x0F, 0xEF])) = 127 * 32 + 15 ∧ beNat (bufOperand (withBuf [])) = 0 * 32 + 0
    ∧ 4096 ≤ beNat (bufOperand (withBuf [0x10, 0x00])) ∧ bufOperand (withBuf [0x00, 0xB3]) = [0x00#8, 0xB3#8] := by decide
theorem witness_AltitudesStayInRange : (∃ t, exec .altb (withBuf [0x00, 0x10]) = .next t ∧ t.result = .sint (-1000))
    ∧ bufOperand (withBuf [0x00, 0x10]) = [0x00#8, 0x10#8] ∧ bufOperand (withBuf [0x0F, 0xFF]) = [0x0F#8, 0xFF#8] :=
  ⟨⟨_, rfl, by decide⟩, by decide, by decide⟩
theorem witness_SstatNamesTheStatus : beNat (bufOperand (withBuf [0x03])) ≤ 3 ∧ beNat (bufOperand (withBuf [])) ≤ 3
    ∧ 3 < beNat (bufOperand (withBuf [0x04])) := by decide
theorem witness_WvcatLooksUpTheName : (7#8).toNat ≤ 7 ∧ ((0#8 : BitVec 8) = 0#8 ∨ 5 ≤ (0#8).toNat)
    ∧ ((5#8 : BitVec 8) = 0#8 ∨ 5 ≤ (5#8).toNat) ∧ 7 < (8#8).toNat := by decide
/-- Lengths 6 and 8; TC 9 and 18 with Q = 0; TC 8, 19 and a Q of 1. -/
theorem witness_DecmeCompletesOrFails : (withBuf [0, 0, 0, 0, 0, 0]).bufLen ≠ 7 ∧ (withBuf [0, 0, 0, 0, 0, 0, 0, 0]).bufLen ≠ 7
    ∧ (∀ x ∈ [0x48, 0x97], (withBuf [x, 0, 0, 0, 0, 0, 0]).bufLen = 7 ∧ 9 ≤ bits (bufOperand (withBuf [x, 0, 0, 0, 0, 0, 0])) 1 5
      ∧ bits (bufOperand (withBuf [x, 0, 0, 0, 0, 0, 0])) 1 5 ≤ 18 ∧ bits (bufOperand (withBuf [x, 0, 0, 0, 0, 0, 0])) 16 16 = 0)
    ∧ bits (bufOperand (withBuf [0x47, 0, 0, 0, 0, 0, 0])) 1 5 < 9 ∧ 18 < bits (bufOperand (withBuf [0x98, 0, 0, 0, 0, 0, 0])) 1 5
    ∧ bits (bufOperand (withBuf [0x48, 0x01, 0, 0, 0, 0, 0])) 16 16 = 1
    ∧ bufOperand (withBuf [0x58, 0xC3, 0x82, 0xD6, 0x90, 0xC8, 0xAC]) = [0x58#8, 0xC3#8, 0x82#8, 0xD6#8, 0x90#8, 0xC8#8, 0xAC#8] := by
  decide
/-- TC 1 and TC 4, category 7. -/
theorem witness_DecmeIdentification : (withBuf [0x0F, 0, 0, 0, 0, 0, 0]).bufLen = 7
    ∧ bits (bufOperand (withBuf [0x0F, 0, 0, 0, 0, 0, 0])) 1 5 = 1
    ∧ bits (bufOperand (withBuf [0x27, 0, 0, 0, 0, 0, 0])) 1 5 = (2 : Fin 3).val + 2
    ∧ bits (bufOperand (withBuf [0x27, 0, 0, 0, 0, 0, 0])) 6 8 = (7 : Fin 8).val := by decide
/-- TC 9 and 18 with Q = 1, TC 18 with Q = 0, TC 20 and 22 with Q = 0. -/
theorem witness_DecmeAirbornePosition : (withBuf [0x48, 0x01, 0, 0, 0, 0, 0]).bufLen = 7
    ∧ (9 ≤ bits (bytes [0x48, 0x01, 0, 0, 0, 0, 0]) 1 5 ∧ bits (bytes [0x48, 0x01, 0, 0, 0, 0, 0]) 16 16 = 1)
    ∧ (bits (bytes [0x97, 0x01, 0, 0, 0, 0, 0]) 1 5 = 18 ∧ bits (bytes [0x97, 0x01, 0, 0, 0, 0, 0]) 16 16 = 1)
    ∧ (bits (bytes [0x97, 0x00, 0, 0, 0, 0, 0]) 1 5 = 18 ∧ bits (bytes [0x97, 0x00, 0, 0, 0, 0, 0]) 16 16 = 0)
    ∧ bits (bytes [0xA0, 0, 0, 0, 0, 0, 0]) 1 5 = 20 ∧ bits (bytes [0xB7, 0, 0, 0, 0, 0, 0]) 1 5 = 22
    ∧ bufOperand (withBuf [0xB7, 0, 0, 0, 0, 0, 0]) = bytes [0xB7, 0, 0, 0, 0, 0, 0] := by decide
theorem witness_DecmeVelocity : (withBuf [0x98, 0, 0, 0, 0, 0, 0]).bufLen = 7
    ∧ bits (bufOperand (withBuf [0x98, 0, 0, 0, 0, 0, 0])) 1 5 = 19 := by decide
theorem witness_DecmeNamedAndUnknown : (withBuf [0xB8, 0, 0, 0, 0, 0, 0]).bufLen = 7
    ∧ bits (bytes [0xB8, 0, 0, 0, 0, 0, 0]) 1 5 = (23#5).toNat ∧ bits (bytes [0xDF, 0, 0, 0, 0, 0, 0]) 1 5 = (27#5).toNat
    ∧ bits (bytes [0xE0, 0, 0, 0, 0, 0, 0]) 1 5 = 28 ∧ bits (bytes [0xE8, 0, 0, 0, 0, 0, 0]) 1 5 = 29
    ∧ bits (bytes [0xF8, 0, 0, 0, 0, 0, 0]) 1 5 = 31 ∧ bits (bytes [0x00, 0, 0, 0, 0, 0, 0]) 1 5 = (0#5).toNat
    ∧ bits (bytes [0x47, 0, 0, 0, 0, 0, 0]) 1 5 = (8#5).toNat ∧ bits (bytes [0xF0, 0, 0, 0, 0, 0, 0]) 1 5 = (30#5).toNat
    ∧ (30#5).toNat ∈ [0, 5, 6, 7, 8, 30] := by decide
theorem witness_VariantFollowsTheTypeCode : ∃ t, exec .decme (withBuf [0xF8, 0, 0, 0, 0, 0, 0]) = .next t
    ∧ t.result = .me (.aircraftOperationStatus 31#5 (ascii "aircraft operation status")) := ⟨_, rfl, by decide⟩
/-- A short frame; an extended one with DF 16 and DF 18; DF 17 with TC 8, TC 19, and TC 9 with Q 1 and Q 0; lengths 0 and 13. -/
theorem witness_DecfrDecodesEveryFrame : (bytes [0x8D, 0, 0, 0, 0, 0, 0]).length = 7
    ∧ bits (bytes (0x87 :: List.replicate 13 0)) 1 5 = 16 ∧ bits (bytes (0x90 :: List.replicate 13 0)) 1 5 = 18
    ∧ (bits (bytes ([0x88, 0, 0, 0, 0x47] ++ List.replicate 9 0)) 1 5 = 17
      ∧ bits (bytes ([0x88, 0, 0, 0, 0x47] ++ List.replicate 9 0)) 33 37 < 9)
    ∧ 18 < bits (bytes ([0x88, 0, 0, 0, 0x98] ++ List.replicate 9 0)) 33 37
    ∧ (bits (bytes ([0x88, 0, 0, 0, 0x48, 0x01] ++ List.replicate 8 0)) 33 37 = 9
      ∧ bits (bytes ([0x88, 0, 0, 0, 0x48, 0x01] ++ List.replicate 8 0)) 48 48 = 1)
    ∧ (bits (bytes ([0x88, 0, 0, 0, 0x48, 0x00] ++ List.replicate 8 0)) 33 37 = 9
      ∧ bits (bytes ([0x88, 0, 0, 0, 0x48, 0x00] ++ List.replicate 8 0)) 48 48 = 0
      ∧ (bytes ([0x88, 0, 0, 0, 0x48, 0x00] ++ List.replicate 8 0)).length = 14)
    ∧ (bufOperand (withBuf [])).length ≠ 7 ∧ (bufOperand (withBuf (List.replicate 13 0))).length ≠ 14 := by decide
theorem witness_ShortFrameDataIsItsCrcField : (withBuf [0x5D, 0x48, 0x40, 0xD6, 0xF8, 0x74, 0x0F]).bufLen = 7
    ∧ ∃ t r, exec .decfr (withBuf [0x5D, 0x48, 0x40, 0xD6, 0xF8, 0x74, 0x0F]) = .next t ∧ t.result = .frame r
      ∧ r.payload = .passthrough (ascii "f8740f") := ⟨by decide +kernel, _, _, rfl, rfl, by decide +kernel⟩
theorem witness_DecfrCompletesOrFails : ((withBuf [0]).bufLen ≠ 7 ∧ (withBuf [0]).bufLen ≠ 14)
    ∧ grayFrame (bufOperand (withBuf ([0x88, 0, 0, 0, 0x97, 0x00] ++ List.replicate 8 0)))
    ∧ ((withBuf frame1).bufLen = 14 ∧ ¬ grayFrame (bufOperand (withBuf frame1)))
    ∧ (withBuf [0x88, 0, 0, 0, 0, 0, 0]).bufLen = 7 ∧ (withBuf frame1).crcTable = tableInit :=
  ⟨by decide, by unfold grayFrame; decide, ⟨by decide, by unfold grayFrame; decide⟩, by decide, rfl⟩
/-- A frame, a frame DECFR does not support, and the three kinds of malformed string. -/
theorem witness_DecfrsDecodesTheHexString :
    (hexDigits (strOperand (withStr "5d4840D6F8740f")) = some [5, 13, 4, 8, 4, 0, 13, 6, 15, 8, 7, 4, 0, 15]
      ∧ BytesOfDigits (bytes [0x5D, 0x48, 0x40, 0xD6, 0xF8, 0x74, 0x0F]) [5, 13, 4, 8, 4, 0, 13, 6, 15, 8, 7, 4, 0, 15]
      ∧ ¬ grayFrame (bytes [0x5D, 0x48, 0x40, 0xD6, 0xF8, 0x74, 0x0F]))
    ∧ ((withStr "8d4").strLen.val % 2 = 1 ∧ hexDigits (strOperand (withStr "0x11")) = none
      ∧ (withStr "").strLen.val ≠ 14 ∧ (withStr "").strLen.val ≠ 28)
    ∧ (hexDigits (strOperand (withStr "8800000048000000000000000000")) = some ([8, 8, 0, 0, 0, 0, 0, 0, 4, 8] ++ List.replicate 18 0)
      ∧ BytesOfDigits (bytes ([0x88, 0, 0, 0, 0x48] ++ List.replicate 9 0)) ([8, 8, 0, 0, 0, 0, 0, 0, 4, 8] ++ List.replicate 18 0)
      ∧ grayFrame (bytes ([0x88, 0, 0, 0, 0x48] ++ List.replicate 9 0))) :=
  ⟨⟨by decide, by unfold BytesOfDigits; decide, by unfold grayFrame; decide⟩, by decide,
    by decide, by unfold BytesOfDigits; decide, by unfold grayFrame; decide⟩
theorem witness_CommandsWriteOnlyStatusAndResult : (∀ a b, Instr.text6 ≠ .sliceb a b)
    ∧ (∃ t, exec .text6 (withBuf frame1) = .next t) ∧ ∃ t, exec (.sliceb 33 88) (withBuf frame1) = .next t :=
  ⟨nofun, ⟨_, rfl⟩, _, rfl⟩
theorem witness_ErrorsChangeNothingElse : ∃ t, exec (.sliceb 1 113) (withBuf frame1) = .next t ∧ t.status ≠ 0x00#8
    ∧ ∃ u, exec .addri (withIval (-1)) = .next u ∧ u.status ≠ 0x00#8 := ⟨_, rfl, by decide, _, rfl, by decide⟩
/-- Two states that differ in a byte beyond BUF_LEN. -/
theorem witness_OnlyOperandsMatter : SameOperands (withBuf [0x01]) ((withBuf [0x01, 0x02]).loadBuf [0x01#8])
    ∧ (withBuf [0x01]).buf ≠ ((withBuf [0x01, 0x02]).loadBuf [0x01#8]).buf
    ∧ (∃ t, exec .uint (withBuf [0x01]) = .next t) ∧ exec .addri (withBuf [0x01]) = .fault .unwrittenIval :=
  ⟨⟨by decide, by decide, rfl, rfl, rfl⟩, by decide, ⟨_, rfl⟩, rfl⟩
theorem witness_FrameDecodingIsPure : (∀ a b, Instr.crcgen ≠ .sliceb a b) ∧ ∃ t, exec .crcgen (withBuf frame1) = .next t :=
  ⟨nofun, _, rfl⟩
theorem witness_EveryStepEnds : (Instr.addri = .addri → (withIval 0).ivalW = true) ∧ exec .addri State.reset = .fault .unwrittenIval
    ∧ ∀ ev rest, ((withIval 0).issue 0x12#32).port = ev :: rest →
      eventFits ev = true ∧ eventReady ((withIval 0).issue 0x12#32).ivalW ev = true :=
  ⟨fun _ => rfl, rfl, by rintro ev rest h; cases h; decide⟩
theorem witness_StepKeepsGoodState : GoodState (withBuf frame1) ∧ ∃ t, step ((withBuf frame1).issue 0x00582102#32) = .next t :=
  ⟨⟨by decide, by decide, rfl, rfl, by decide, by decide⟩, _, rfl⟩

end Sys2Proof.Tests
end

namespace Sys2Proof.Proofs.StateFamily

open Sys2Proof Sys2Proof.Machine Sys2Proof.Claims

/-! ## The states a command ends in -/

theorem complete_eq_ended (s : State) (x : Result) : s.complete x = ended s 0x00#8 x := rfl

theorem raise_eq_ended (s : State) (e : Err) : s.raise e = ended s (errCode e) .none := rfl

/-- A state that is the end of a command from `s` is determined by its own STATUS and RESULT. -/
theorem eq_ended_of_eq_ended {s t : State} {c : BitVec 8} {r : Result} (h : t = ended s c r) :
    t = ended s t.status t.result := by
  subst h
  rfl

/-- The inversion of `exec` where it answers a next state: a completion, an error, or a SLICEB of a valid range. -/
theorem exec_next_cases {i : Instr} {s t : State} (h : exec i s = .next t) :
    (∃ x, t = s.complete x) ∨ (∃ e, t = s.raise e)
      ∨ ∃ a b r, i = .sliceb a b ∧ sliceF (bufOperand s) (immediate a) (immediate b) = .ok r
        ∧ t = (s.loadBuf r).complete (.bytes r) := by
  have hend := exec_end i s
  rw [h] at hend
  cases hend with
  | completed x => exact .inl ⟨x, rfl⟩
  | raised e => exact .inr (.inl ⟨e, rfl⟩)
  | replaced a b r hi hr => exact .inr (.inr ⟨a, b, r, hi, hr, rfl⟩)

/-- A next state of `exec` differs from the state before in STATUS and RESULT alone, or a SLICEB has loaded BUF. -/
theorem exec_next_frame {i : Instr} {s t : State} (h : exec i s = .next t) :
    t = ended s t.status t.result ∨ ∃ a b r, i = .sliceb a b ∧ t = (s.loadBuf r).complete (.bytes r) := by
  rcases exec_next_cases h with ⟨x, hx⟩ | ⟨e, he⟩ | ⟨a, b, r, hi, -, hr⟩
  · exact .inl (eq_ended_of_eq_ended (hx.trans (complete_eq_ended s x)))
  · exact .inl (eq_ended_of_eq_ended (he.trans (raise_eq_ended s e)))
  · exact .inr ⟨a, b, r, hi, hr⟩

/-- Settles O51, by the inversion of `exec`: only a SLICEB of a valid range does more than end, and it loads BUF. -/
theorem commandsWriteOnlyStatusAndResult : Obligations.CommandsWriteOnlyStatusAndResult := by
  unfold Obligations.CommandsWriteOnlyStatusAndResult
  constructor
  · intro i s t hi h
    rcases exec_next_frame h with ht | ⟨a, b, -, hab, -⟩
    · exact ht
    · exact absurd hab (hi a b)
  · intro a b s t h
    rcases exec_next_frame h with ht | ⟨-, -, r, -, rfl⟩
    · rw [ht]
      rfl
    · rfl

/-! ## The CRC table that reset builds -/

/-- Reading entry i of the built table gives TABLE_F(i) (R121, R250). -/
theorem tableAt_tableInit (i : BitVec 8) : tableAt tableInit i = tableF i := by
  simp [tableAt, tableInit]

/-- One step of TABLE_F on 24 bits is the first step of the loop over unbounded integers (R121). -/
theorem tableLoop_succ_toNat (n : Nat) (acc : BitVec 24) :
    tableLoop (n + 1) acc.toNat = tableLoop n (crcShift acc).toNat := by
  have htop : acc.getLsbD 23 = decide (acc.toNat / 2 ^ 23 % 2 = 1) := by
    rw [← BitVec.testBit_toNat, Nat.testBit_eq_decide_div_mod_eq]
  have hshift : (acc <<< 1).toNat = acc.toNat * 2 % 2 ^ 24 := by
    rw [BitVec.toNat_shiftLeft, Nat.shiftLeft_eq, pow_one]
  simp only [tableLoop, crcShift, htop, decide_eq_true_eq, ← hshift]
  split
  · rw [BitVec.toNat_xor]
    rfl
  · rfl

theorem tableLoop_toNat (n : Nat) (acc : BitVec 24) : tableLoop n acc.toNat = (crcShift^[n] acc).toNat := by
  induction n generalizing acc with
  | zero => rfl
  | succ n ih => rw [tableLoop_succ_toNat, ih, Function.iterate_succ_apply]

/-- TABLE_F starts with the byte in bits 23..16 (R121). -/
theorem toNat_setWidth_shiftLeft_sixteen (i : BitVec 8) : (i.setWidth 24 <<< 16).toNat = i.toNat * 2 ^ 16 := by
  rw [BitVec.toNat_shiftLeft, BitVec.toNat_setWidth, Nat.shiftLeft_eq]
  omega

/-- TABLE_F is the loop of eight shifts over unbounded integers (R121). -/
theorem toNat_tableF (i : BitVec 8) : (tableF i).toNat = tableLoop 8 (i.toNat * 2 ^ 16) := by
  rw [← toNat_setWidth_shiftLeft_sixteen, tableLoop_toNat, tableF]

/-- The built table holds at every index the value of the loop of R121. -/
theorem toNat_tableAt_tableInit (i : BitVec 8) : (tableAt tableInit i).toNat = tableLoop 8 (i.toNat * 2 ^ 16) := by
  rw [tableAt_tableInit, toNat_tableF]

/-- Settles O1: the registers by evaluating the reset state, the table by `toNat_tableAt_tableInit`. -/
theorem resetLeavesTheSpecValues : Obligations.ResetLeavesTheSpecValues := by
  unfold Obligations.ResetLeavesTheSpecValues
  exact ⟨rfl, rfl, rfl, rfl, rfl, rfl, rfl, rfl, toNat_tableAt_tableInit⟩

end Sys2Proof.Proofs.StateFamily

namespace Sys2Proof.Proofs.MemoryFamily

open Sys2Proof Sys2Proof.Machine Sys2Proof.Claims

/-! ## The bits of a byte sequence, byte by byte -/

/-- Byte `k` of a sequence is a base-256 digit of its big-endian value, byte 0 the most significant (R12). -/
theorem beNat_digit {b : List Byte} {k : Nat} {x : Byte} (h : b[k]? = some x) :
    beNat b / 256 ^ (b.length - 1 - k) % 256 = x.toNat := by
  obtain ⟨hk, rfl⟩ := List.getElem?_eq_some_iff.mp h
  have hsplit : b = b.take k ++ b[k] :: b.drop (k + 1) := by
    rw [List.getElem_cons_drop, List.take_append_drop]
  have hlen : (b.drop (k + 1)).length = b.length - 1 - k := by
    rw [List.length_drop]
    omega
  have hval : beNat b = beNat (b.drop (k + 1))
      + 256 ^ (b.length - 1 - k) * (256 * beNat (b.take k) + b[k].toNat) := by
    conv_lhs => rw [hsplit, beNat_append, List.length_cons, hlen, beNat, hlen]
    ring
  have hlow : beNat (b.drop (k + 1)) < 256 ^ (b.length - 1 - k) := hlen ▸ beNat_lt _
  rw [hval, Nat.add_mul_div_left _ _ (by positivity), Nat.div_eq_of_lt hlow, Nat.zero_add, Nat.mul_add_mod,
    Nat.mod_eq_of_lt b[k].isLt]

/-- Reducing to the low byte keeps each of its bits. -/
theorem bit_of_mod_256 (v : Nat) {i : Nat} (hi : i < 8) : v % 256 / 2 ^ i % 2 = v / 2 ^ i % 2 := by
  have h256 : 256 = 2 ^ i * (2 * 2 ^ (7 - i)) := by
    rw [← pow_succ', ← pow_add, show i + (7 - i + 1) = 8 by omega]
    norm_num
  rw [h256, Nat.mod_mul_right_div_self, Nat.mod_mul_right_mod]

/-- Bit `8k + j + 1` of a range numbering, counted from the top, is bit `7 - j` of byte `k` (R11, R43). -/
theorem bits_single_eq_byte_bit {b : List Byte} {k j : Nat} {x : Byte} (h : b[k]? = some x) (hj : j < 8) :
    bits b (8 * k + j + 1) (8 * k + j + 1) = x.toNat / 2 ^ (7 - j) % 2 := by
  have hk : k < b.length := (List.getElem?_eq_some_iff.mp h).1
  have hexp : 2 ^ (8 * b.length - (8 * k + j + 1)) = 256 ^ (b.length - 1 - k) * 2 ^ (7 - j) := by
    rw [show (256 : Nat) = 2 ^ 8 by norm_num, ← pow_mul, ← pow_add]
    congr 1
    omega
  rw [bits, hexp, ← Nat.div_div_eq_div_mul, Nat.sub_self, Nat.zero_add, pow_one,
    ← bit_of_mod_256 _ (by omega : 7 - j < 8), beNat_digit h]

/-! ## Slices of one bit -/

/-- SLICE_F at a single valid position is one byte that holds the bit there (R102). -/
theorem sliceF_single (b : List Byte) (p : Nat) (h1 : 1 ≤ p) (h2 : p ≤ 8 * b.length) :
    sliceF b p p = .ok [BitVec.ofNat 8 (bits b p p)] := by
  rw [sliceF_valid b p p h1 (le_refl p) h2, bits, Nat.sub_self]
  simp [beBytes]

/-- Settles O17: the slice is the bit of the big-endian value there, and byte `k` is a base-256 digit of that value. -/
theorem bitOneIsTheTopBitOfByteZero : Obligations.BitOneIsTheTopBitOfByteZero := by
  unfold Obligations.BitOneIsTheTopBitOfByteZero
  intro b k j x h hj
  have hk : k < b.length := (List.getElem?_eq_some_iff.mp h).1
  rw [sliceF_single b _ (by omega) (by omega), bits_single_eq_byte_bit h hj]

end Sys2Proof.Proofs.MemoryFamily

namespace Sys2Proof.Proofs.EncodingFamily

open Sys2Proof Sys2Proof.Machine Sys2Proof.Safety Sys2Proof.Claims

/-! ## The words the decoder accepts -/

theorem noImmediate_ok {a b : BitVec 8} {i j : Instr} (h : noImmediate a b i = .ok j) : a = 0#8 ∧ b = 0#8 ∧ i = j := by
  unfold noImmediate at h
  split at h
  case isTrue hab => exact ⟨hab.1, hab.2, Except.ok.inj h⟩
  case isFalse => cases h

theorem onlyA_ok {b : BitVec 8} {i j : Instr} (h : onlyA b i = .ok j) : b = 0#8 ∧ i = j := by
  unfold onlyA at h
  split at h
  case isTrue hb => exact ⟨hb, Except.ok.inj h⟩
  case isFalse => cases h

/-- The inversion of the decoder's table: it answers a command for that command's own OP and immediates only (R62, R63). -/
theorem decodeOp_ok {op a b : BitVec 8} {i : Instr} (h : decodeOp op a b = .ok i) :
    op = opcode i ∧ a = immA i ∧ b = immB i := by
  unfold decodeOp at h
  split at h
  case h_2 hop | h_3 hop | h_14 hop =>
    cases h
    exact ⟨BitVec.eq_of_toNat_eq hop, rfl, rfl⟩
  case h_4 hop =>
    obtain ⟨rfl, rfl⟩ := onlyA_ok h
    exact ⟨BitVec.eq_of_toNat_eq hop, rfl, rfl⟩
  case h_18 => cases h
  all_goals
    rename_i hop
    obtain ⟨rfl, rfl, rfl⟩ := noImmediate_ok h
    exact ⟨BitVec.eq_of_toNat_eq hop, rfl, rfl⟩

/-- The inversion of the decoder: a word it accepts has C = 0 and the fields of the command it answers (R61, R66). -/
theorem decode_ok_fields {w : Word} {i : Instr} (h : decode w = .ok i) :
    cField w = 0#8 ∧ opField w = opcode i ∧ aField w = immA i ∧ bField w = immB i := by
  unfold decode at h
  split at h
  case isTrue => cases h
  case isFalse hc => exact ⟨not_not.mp hc, decodeOp_ok h⟩

/-- A word the decoder accepts is the encoding of the command it answers. -/
theorem eq_encode_of_decode_ok {w : Word} {i : Instr} (h : decode w = .ok i) : w = encode i := by
  obtain ⟨hc, hop, ha, hb⟩ := decode_ok_fields h
  rw [encode, ← hop, ← ha, ← hb, wordOf_fields w hc]

/-! ## Illegal words -/

/-- A step of a word that the decoder accepts as no command ends with ILLEGAL_COMMAND (R65). -/
theorem step_issue_illegal {s : State} {w : Word} (h : ∀ i, decode w ≠ .ok i) :
    step (s.issue w) = .next (ended s 0x06#8 .none) := by
  rw [step_issue]
  cases hd : decode w with
  | ok i => exact absurd hd (h i)
  | error e => rfl

theorem step_issue_legal {s : State} {w : Word} {i : Instr} (h : decode w = .ok i) : step (s.issue w) = exec i s := by
  rw [step_issue, h]

theorem opcode_mem (i : Instr) : opcode i ∈ [0x00#8, 0x01#8, 0x02#8, 0x08#8, 0x09#8, 0x0A#8, 0x10#8, 0x11#8, 0x12#8, 0x13#8,
    0x14#8, 0x15#8, 0x16#8, 0x18#8, 0x20#8, 0x30#8, 0x31#8] := by
  cases i <;> simp [opcode]

/-- CRCTAB takes no immediate B (R62). -/
theorem immB_of_opcode_crctab {i : Instr} (h : opcode i = 0x08#8) : immB i = 0#8 := by
  cases i <;> simp [opcode, immB] at h ⊢

/-- Only SLICE, SLICEB, CRCTAB and WVCAT take an immediate (R62). -/
theorem imm_zero_of_opcode {i : Instr} (h : opcode i ∉ [0x01#8, 0x02#8, 0x08#8, 0x18#8]) : immA i = 0#8 ∧ immB i = 0#8 := by
  cases i <;> simp [opcode, immA, immB] at h ⊢

/-- Settles O5: a word the decoder accepts has the fields of a command, and no command has those of an illegal word. -/
theorem illegalWordsEndWithStatusSix : Obligations.IllegalWordsEndWithStatusSix := by
  unfold Obligations.IllegalWordsEndWithStatusSix
  intro s w hw
  refine step_issue_illegal fun i hi => ?_
  obtain ⟨hc, hop, ha, hb⟩ := decode_ok_fields hi
  rw [hc, hop, ha, hb] at hw
  rcases hw with hC | hOp | ⟨hOp, hB⟩ | ⟨hOp, hAB⟩
  · exact hC rfl
  · exact hOp (opcode_mem i)
  · exact hB (immB_of_opcode_crctab hOp)
  · obtain ⟨hA, hB⟩ := imm_zero_of_opcode hOp
    exact hAB.elim (absurd hA) (absurd hB)

/-- A command with an OP of its own and no immediate has one word: every other word with its OP is illegal (R62, R65). -/
theorem soleWord_encode {i : Instr} (hdec : decode (encode i) = .ok i) (hop : ∀ j, opcode j = opcode i → j = i) :
    SoleWord i (encode i) := by
  refine ⟨fun s => step_issue_legal hdec, fun v s hv hne => step_issue_illegal fun j hj => hne ?_⟩
  have hji : opcode j = opcode i := by
    rw [← (decode_ok_fields hj).2.1, hv, (decode_ok_fields hdec).2.1]
  rw [eq_encode_of_decode_ok hj, hop j hji]

/-! ## Hexadecimal digits and the alphabet -/

/-- The hexadecimal digit characters and their values (R80). -/
theorem hexVal_eq_some_iff (c : Byte) (d : Nat) :
    hexVal c = some d ↔ (d ≤ 9 ∧ c.toNat = 0x30 + d) ∨ (10 ≤ d ∧ d ≤ 15 ∧ c.toNat = 0x41 + (d - 10))
      ∨ (10 ≤ d ∧ d ≤ 15 ∧ c.toNat = 0x61 + (d - 10)) := by
  unfold hexVal
  split_ifs <;> simp only [Option.some.injEq, false_iff] <;> omega

/-- Settles O36: the digits by `hexVal_eq_some_iff`, the fixed strings by evaluating them. -/
theorem characterSetsOfTheSpec : Obligations.CharacterSetsOfTheSpec := by
  unfold Obligations.CharacterSetsOfTheSpec
  exact ⟨hexVal_eq_some_iff, by decide, by decide, by decide, by decide, by decide, by decide⟩

/-! ## Address strings -/

theorem hexDigits_cons_isSome {c : Byte} {cs : Text} {ds : List Nat} (h : hexDigits (c :: cs) = some ds) :
    ∃ d ds', hexVal c = some d ∧ hexDigits cs = some ds' ∧ ds = d :: ds' := by
  simp only [hexDigits] at h
  split at h
  case h_1 d ds' hd hds => exact ⟨d, ds', hd, hds, (Option.some.inj h).symm⟩
  case h_2 => cases h

/-- Every string is an optional mark before what is left without it (R82). -/
theorem exists_mark_append_dropHexMark (cs : Text) :
    ∃ mark ∈ [[], ascii "0x", ascii "0X"], cs = mark ++ dropHexMark cs := by
  unfold dropHexMark
  split
  case h_1 a b rest =>
    split
    case isTrue hmark =>
      obtain ⟨rfl, rfl | rfl⟩ := hmark
      · exact ⟨ascii "0x", by simp, rfl⟩
      · exact ⟨ascii "0X", by simp, rfl⟩
    case isFalse => exact ⟨[], by simp, rfl⟩
  case h_2 => exact ⟨[], by simp, rfl⟩

/-- No string of hexadecimal digits begins with a mark, as x and X are no digits (R80, R82). -/
theorem dropHexMark_of_hexDigits {cs : Text} {ds : List Nat} (h : hexDigits cs = some ds) : dropHexMark cs = cs := by
  unfold dropHexMark
  split
  case h_1 a b rest =>
    obtain ⟨-, ds', -, hrest, -⟩ := hexDigits_cons_isSome h
    obtain ⟨d, -, hb, -, -⟩ := hexDigits_cons_isSome hrest
    refine if_neg ?_
    rintro ⟨-, rfl | rfl⟩ <;> exact absurd hb (by simp [hexVal])
  case h_2 => rfl

/-- Of a mark and hexadecimal digits the digits are left (R82, R145). -/
theorem dropHexMark_mark_append {mark cs : Text} {ds : List Nat} (hm : mark ∈ [[], ascii "0x", ascii "0X"])
    (h : hexDigits cs = some ds) : dropHexMark (mark ++ cs) = cs := by
  simp only [List.mem_cons, List.not_mem_nil, or_false] at hm
  obtain rfl | rfl | rfl := hm
  · exact dropHexMark_of_hexDigits h
  · rfl
  · rfl

/-- PARSE_ADDR_STR of one or more hexadecimal digits, after a mark or none, is their value (R145). -/
theorem parseAddrStr_of_hexDigits {cs : Text} {ds : List Nat} (h : hexDigits (dropHexMark cs) = some ds) (hne : ds ≠ []) :
    parseAddrStr cs = .ok (digitsNat ds) := by
  unfold parseAddrStr
  cases hcs : dropHexMark cs with
  | nil =>
    rw [hcs] at h
    exact absurd (Option.some.inj h).symm hne
  | cons c rest =>
    rw [hcs] at h
    simp only [h]

/-- PARSE_ADDR_STR of a string without a digit, or with a character that is none, is INPUT_FORMAT (R145). -/
theorem parseAddrStr_of_no_digits {cs : Text} (h : ∀ ds, hexDigits (dropHexMark cs) = some ds → ds = []) :
    parseAddrStr cs = .error .inputFormat := by
  unfold parseAddrStr
  cases hcs : dropHexMark cs with
  | nil => rfl
  | cons c rest =>
    cases hd : hexDigits (c :: rest) with
    | none => simp only [hd]
    | some ds =>
      have hnil : ds = [] := h ds (by rw [hcs, hd])
      obtain ⟨d, ds', -, -, hcons⟩ := hexDigits_cons_isSome hd
      rw [hnil] at hcons
      cases hcons

theorem normAddr_eq_addrOf {v : Nat} (h : v ≤ 0xFFFFFF) : normAddr v = .ok (addrOf v) := normAddr_valid v h

/-- ADDRS of a well-formed string whose value is in range. -/
theorem exec_addrs_of_le {s : State} {v : Nat} (hp : parseAddrStr (strOperand s) = .ok v) (hv : v ≤ 0xFFFFFF) :
    exec .addrs s = .next (ended s 0x00#8 (.addr (addrOf v))) := by
  show execAddrs s = _
  rw [execAddrs, hp, except_bind_ok, normAddr_eq_addrOf hv]
  rfl

/-- ADDRS of a well-formed string whose value is beyond 24 bits. -/
theorem exec_addrs_of_gt {s : State} {v : Nat} (hp : parseAddrStr (strOperand s) = .ok v) (hv : 0xFFFFFF < v) :
    exec .addrs s = .next (ended s 0x02#8 .none) := by
  show execAddrs s = _
  rw [execAddrs, hp, except_bind_ok, normAddr_invalid v (by omega)]
  rfl

/-- ADDRS of a string that is no address: the format is checked before the range (R146). -/
theorem exec_addrs_of_error {s : State} {e : Err} (hp : parseAddrStr (strOperand s) = .error e) :
    exec .addrs s = .next (ended s (errCode e) .none) := by
  show execAddrs s = _
  rw [execAddrs, hp]
  rfl

/-- Settles O32: a string splits in one way only into a mark and digits, and PARSE_ADDR_STR finds that split. -/
theorem addrsParsesTheGrammar : Obligations.AddrsParsesTheGrammar := by
  unfold Obligations.AddrsParsesTheGrammar
  refine ⟨?_, ?_, ?_, ?_⟩
  · exact soleWord_encode (i := .addrs) rfl fun j hj => by cases j <;> simp [opcode] at hj ⊢
  · intro s mark cs ds hs hm hds hne
    have hp : parseAddrStr (strOperand s) = .ok (digitsNat ds) := by
      rw [hs]
      exact parseAddrStr_of_hexDigits (by rw [dropHexMark_mark_append hm hds, hds]) hne
    exact ⟨exec_addrs_of_le hp, exec_addrs_of_gt hp⟩
  · intro s h
    obtain ⟨mark, hm, hs⟩ := exists_mark_append_dropHexMark (strOperand s)
    exact exec_addrs_of_error (parseAddrStr_of_no_digits fun ds hds => h mark _ ds hs hm hds)
  · intro s hs
    have hp : parseAddrStr (strOperand s) = .ok 0xABCDEF := by
      rw [hs]
      decide
    rw [exec_addrs_of_le hp (by decide)]
    rfl

/-! ## Fields of a byte sequence as its bits -/

/-- A bit range is a number of that many bits. -/
theorem bits_lt (b : List Byte) (s e : Nat) : bits b s e < 2 ^ (e - s + 1) := Nat.mod_lt _ (by positivity)

/-- The bits up to position `e` and the range `s..e` agree in the range's width. -/
theorem ofNat_bits {b : List Byte} {n s e w : Nat} (hl : b.length = n) (hw : e - s + 1 = w) :
    BitVec.ofNat w (bits b s e) = BitVec.ofNat w (beNat b / 2 ^ (8 * n - e)) := by
  subst hl hw
  apply BitVec.eq_of_toNat_eq
  simp [bits]

/-- The value of a slice is that of its bits (R11, R102). -/
theorem beNat_of_sliceF {b r : List Byte} {s e : Nat} (h : sliceF b s e = .ok r) : beNat r = bits b s e := by
  rcases sliceF_cases b s e with ⟨r', hr, -, -, -, -, hv⟩ | ⟨herr, -⟩
  · rw [h] at hr
    rw [Except.ok.inj hr, hv, bits]
  · rw [h] at herr
    cases herr

/-- The bytes from byte `i` on hold the bits from bit `8i + 1` on. -/
theorem beNat_drop {b : List Byte} {i : Nat} (h : i < b.length) : beNat (b.drop i) = bits b (8 * i + 1) (8 * b.length) :=
  beNat_of_sliceF (sliceF_tail b i h)

/-! ## Packed text -/

/-- One loop by shifts and masks, the other by division (R150). -/
theorem text6Loop_eq_textLoop (n v : Nat) (acc : Text) : text6Loop n v acc = textLoop n v acc := by
  induction n generalizing v acc with
  | zero => rfl
  | succ n ih =>
    rw [text6Loop, textLoop, ih, alpha6, Nat.shiftRight_eq_div_pow,
      show v &&& 0x3F = v % 64 from Nat.and_two_pow_sub_one_eq_mod v 6]

theorem textLoop_length (n v : Nat) : (textLoop n v []).length = n := by
  rw [← text6Loop_eq_textLoop, text6Loop_length, List.length_nil, Nat.add_zero]

/-- The call sign of an identification: the eight characters of bits 9 to 56 (R97). -/
theorem text6F_callsign {me : List Byte} (hl : me.length = 7) : text6F (me.drop 1) = textLoop 8 (bits me 9 56) [] := by
  have hv : beNat (me.drop 1) = bits me 9 56 := by
    rw [beNat_drop (by omega), hl]
  rw [text6F, text6Loop_eq_textLoop, hv, List.length_drop, hl]

/-! ## ME_F by type code -/

theorem toNat_ofNat_typeCode (me : List Byte) : (BitVec.ofNat 5 (bits me 1 5)).toNat = bits me 1 5 :=
  Nat.mod_eq_of_lt (bits_lt me 1 5)

/-- ME_F reads the type code and follows its map (R191). -/
theorem meF_eq_meByTc {me : List Byte} (hl : me.length = 7) : meF me = meByTc (BitVec.ofNat 5 (bits me 1 5)) me := by
  rw [meF, field_valid me 1 5 (by omega) (by omega) (by omega), except_bind_ok,
    ofNat_bits rfl (show 5 - 1 + 1 = 5 from rfl)]

theorem meF_of_ident {me : List Byte} (hl : me.length = 7) (h1 : 1 ≤ bits me 1 5) (h4 : bits me 1 5 ≤ 4) :
    meF me = identF (BitVec.ofNat 5 (bits me 1 5)) me := by
  rw [meF_eq_meByTc hl, meByTc, toNat_ofNat_typeCode]
  exact if_pos ⟨h1, h4⟩

theorem meF_of_position {me : List Byte} (hl : me.length = 7)
    (h : (9 ≤ bits me 1 5 ∧ bits me 1 5 ≤ 18) ∨ (20 ≤ bits me 1 5 ∧ bits me 1 5 ≤ 22)) :
    meF me = positionF (BitVec.ofNat 5 (bits me 1 5)) me := by
  rw [meF_eq_meByTc hl, meByTc, toNat_ofNat_typeCode]
  exact (if_neg (by omega)).trans (if_pos h)

theorem meF_of_velocity {me : List Byte} (hl : me.length = 7) (h : bits me 1 5 = 19) : meF me = velocityF 19#5 me := by
  rw [meF_eq_meByTc hl, h]
  rfl

/-- The type code and the Q bit of an ME field by division (R95, R155). -/
theorem typeCode_bits {me : List Byte} (hl : me.length = 7) :
    beNat me / 2 ^ 51 = bits me 1 5 ∧ beNat me / 2 ^ 40 % 2 = bits me 16 16 := by
  have hlt := beNat_lt_two_pow me
  simp only [bits, hl] at hlt ⊢
  omega

/-- A barometric position with Q = 0 is a Gray-code altitude (R157, R182). -/
theorem meF_of_gray {me : List Byte} (hl : me.length = 7) (h9 : 9 ≤ bits me 1 5) (h18 : bits me 1 5 ≤ 18)
    (hq : bits me 16 16 = 0) : meF me = .error .unsupportedEncoding := by
  obtain ⟨htc, hQ⟩ := typeCode_bits hl
  rcases meF_cases me hl with ⟨m, -, -, -, -, hn⟩ | ⟨herr, -⟩
  · rw [htc, hQ] at hn
    exact absurd ⟨h9, h18, hq⟩ hn
  · exact herr

/-- Every other ME field has a variant (R191). -/
theorem meF_of_supported {me : List Byte} (hl : me.length = 7)
    (h : bits me 1 5 < 9 ∨ 18 < bits me 1 5 ∨ bits me 16 16 = 1) : ∃ m, meF me = .ok m := by
  obtain ⟨htc, hQ⟩ := typeCode_bits hl
  rcases meF_cases me hl with ⟨m, hm, -⟩ | ⟨-, h9, h18, hq⟩
  · exact ⟨m, hm⟩
  · omega

/-! ## DECME by what ME_F answers -/

/-- DECME completes with the variant ME_F gives (R190). -/
theorem exec_decme_of_ok {s : State} {m : MeVariant} (hl : s.bufLen = 7) (hm : meF (bufOperand s) = .ok m) :
    exec .decme s = .next (ended s 0x00#8 (.me m)) := by
  show execDecme s = _
  rw [execDecme, if_neg (by simp [hl]), hm]
  rfl

/-- DECME raises ME_F's error (R182, R190). -/
theorem exec_decme_of_error {s : State} {e : Err} (hl : s.bufLen = 7) (hm : meF (bufOperand s) = .error e) :
    exec .decme s = .next (ended s (errCode e) .none) := by
  show execDecme s = _
  rw [execDecme, if_neg (by simp [hl]), hm]
  rfl

theorem bufOperand_length_seven {s : State} (hl : s.bufLen = 7) : (bufOperand s).length = 7 := by
  rw [bufOperand_length, hl]
  rfl

/-! ## Identification -/

/-- The wake-vortex name of an identification (R170, R192). -/
def identName (tc cat : Nat) : Text := if tc = 1 then ascii "reserved" else wvName tc cat

theorem identName_reserved {tc cat : Nat} (h : tc = 1) : identName tc cat = ascii "reserved" := if_pos h

theorem identName_table (k : Fin 3) (c : Fin 8) : identName (k.val + 2) c.val = Config.wvName k c := by
  rw [identName, if_neg (by omega), wvName, Nat.add_sub_cancel, Fin.ofNat_val_eq_self, Fin.ofNat_val_eq_self]

/-- ME_F of TC 1 to 4 (R97, R192). -/
theorem meF_ident {me : List Byte} (hl : me.length = 7) (h1 : 1 ≤ bits me 1 5) (h4 : bits me 1 5 ≤ 4) :
    meF me = .ok (.ident (BitVec.ofNat 5 (bits me 1 5)) (BitVec.ofNat 3 (bits me 6 8)) (textLoop 8 (bits me 9 56) [])
      (identName (bits me 1 5) (bits me 6 8))) := by
  have hcat : BitVec.ofNat 3 (beNat me / 2 ^ 48) = BitVec.ofNat 3 (bits me 6 8) :=
    (ofNat_bits (s := 6) (e := 8) hl rfl).symm
  have hcatNat : (BitVec.ofNat 3 (bits me 6 8)).toNat = bits me 6 8 := Nat.mod_eq_of_lt (bits_lt me 6 8)
  have htc := toNat_ofNat_typeCode me
  rw [meF_of_ident hl h1 h4, identF_eq _ me hl (by rw [htc]; exact h1) (by rw [htc]; exact h4), htc, hcat, hcatNat,
    text6F_callsign hl]
  rfl

/-- Settles O42: DECME answers the variant of `meF_ident`, whatever the table of names. -/
theorem decmeIdentification : Obligations.DecmeIdentification := by
  unfold Obligations.DecmeIdentification
  intro s hl h1 h4
  refine ⟨_, exec_decme_of_ok hl (meF_ident (bufOperand_length_seven hl) h1 h4), textLoop_length 8 _, identName_reserved, ?_⟩
  intro k c hk hc
  rw [hk, hc, identName_table]

/-! ## Airborne velocity -/

/-- Settles O44: each raw field of `velocityF_eq` is its bit range. -/
theorem decmeVelocity : Obligations.DecmeVelocity := by
  unfold Obligations.DecmeVelocity
  rintro s me hl rfl htc
  have hme := bufOperand_length_seven hl
  refine exec_decme_of_ok hl ?_
  rw [meF_of_velocity hme htc, velocityF_eq _ _ hme]
  simp only [ofNat_bits hme, Nat.reduceMul, Nat.reduceSub, Nat.reduceAdd, pow_zero, Nat.div_one]

/-! ## Airborne position -/

theorem ssNames_eq_ssName {code : Nat} (h : code < 4) : ssNames[code]? = some (ssName code) := by
  interval_cases code <;> rfl

/-- A position up to its altitude, its fields as bit ranges (R98). -/
theorem positionF_bits {tc : BitVec 5} {me : List Byte} (hl : me.length = 7) :
    positionF tc me = (if tc.toNat ≤ 18 then
        (do let alt ← altF (altitudeField me)
            return .posBaro tc (ssName (bits me 6 7)) (BitVec.ofNat 1 (bits me 8 8)) alt (BitVec.ofNat 1 (bits me 21 21))
              (BitVec.ofNat 1 (bits me 22 22)) (BitVec.ofNat 17 (bits me 23 39)) (BitVec.ofNat 17 (bits me 40 56)))
      else .ok (.posGnss tc (ssName (bits me 6 7)) (BitVec.ofNat 1 (bits me 8 8)) (BitVec.ofNat 12 (bits me 9 20))
          (BitVec.ofNat 1 (bits me 21 21)) (BitVec.ofNat 1 (bits me 22 22)) (BitVec.ofNat 17 (bits me 23 39))
          (BitVec.ofNat 17 (bits me 40 56)))) := by
  obtain ⟨ss, hss, -, hpos⟩ := positionF_eq tc me hl
  have hbits : beNat me / 2 ^ 49 % 4 = bits me 6 7 := by
    rw [bits, hl]
    rfl
  rw [hbits, ssNames_eq_ssName (bits_lt me 6 7), Option.some.injEq] at hss
  rw [hpos, hss]
  simp only [ofNat_bits hl, Nat.reduceMul, Nat.reduceSub, Nat.reduceAdd, pow_zero, Nat.div_one]

theorem beNat_altitudeField_eq_bits {me : List Byte} (hl : me.length = 7) : beNat (altitudeField me) = bits me 9 20 := by
  rw [beNat_altitudeField, bits, hl]

/-- The Q bit is bit 4 of the altitude field, the bits above and below it the scaled steps (R155). -/
theorem altitude_bits {me : List Byte} (hl : me.length = 7) : bits me 9 20 / 16 % 2 = bits me 16 16
    ∧ bits me 9 20 / 32 = bits me 9 15 ∧ bits me 9 20 % 16 = bits me 17 20 := by
  simp only [bits, hl]
  omega

theorem altF_of_q_one {me : List Byte} (hl : me.length = 7) (hq : bits me 16 16 = 1) :
    altF (altitudeField me) = .ok ((bits me 9 15 * 4 + bits me 17 20) * 25 - 1000) := by
  obtain ⟨hQ, hhigh, hlow⟩ := altitude_bits hl
  have hlt := bits_lt me 9 20
  rcases altF_cases (altitudeField me) with ⟨alt, halt, -, -, -, hval⟩ | ⟨-, -, hzero⟩ | ⟨-, hbig⟩
  · rw [beNat_altitudeField_eq_bits hl, hhigh, hlow] at hval
    rw [halt, hval]
    push_cast
    rfl
  · rw [beNat_altitudeField_eq_bits hl] at hzero
    omega
  · rw [beNat_altitudeField_eq_bits hl] at hbig
    omega

/-- Settles O43: `positionF_bits`, with the altitude by its Q bit for TC 9 to 18 and unchecked for TC 20 to 22. -/
theorem decmeAirbornePosition : Obligations.DecmeAirbornePosition := by
  unfold Obligations.DecmeAirbornePosition
  rintro s me hl rfl
  have hme := bufOperand_length_seven hl
  have htc := toNat_ofNat_typeCode (bufOperand s)
  refine ⟨fun h9 h18 hq => ?_, fun h9 h18 hq => ?_, fun h20 h22 => ?_⟩
  · refine exec_decme_of_ok hl ?_
    rw [meF_of_position hme (.inl ⟨h9, h18⟩), positionF_bits hme, htc, if_pos h18, altF_of_q_one hme hq]
    rfl
  · exact exec_decme_of_error hl (meF_of_gray hme h9 h18 hq)
  · refine exec_decme_of_ok hl ?_
    rw [meF_of_position hme (.inr ⟨h20, h22⟩), positionF_bits hme, htc, if_neg (by omega)]

/-! ## The running CRC, masked each byte or once at the end -/

/-- One byte of the running CRC over unbounded integers (R123). -/
def crcLoopByte (t : Vector (BitVec 24) 256) (crc : Nat) (x : Byte) : Nat :=
  (tableAt t (BitVec.ofNat 8 (((crc >>> 16) ^^^ x.toNat) &&& 0xFF))).toNat ^^^ (crc <<< 8)

theorem crcLoop_eq_foldl (t : Vector (BitVec 24) 256) (d : List Byte) :
    crcLoop t d = d.foldl (crcLoopByte t) 0 % 2 ^ 24 := rfl

/-- The table index of a step depends on the low 24 bits of the running value only (R123, D10). -/
theorem crcIndex_ofNat (crc : Nat) (x : Byte) : (BitVec.ofNat 24 crc >>> 16).setWidth 8 ^^^ x
    = BitVec.ofNat 8 (((crc >>> 16) ^^^ x.toNat) &&& 0xFF) := by
  have hmask : ∀ n, BitVec.ofNat 8 (n &&& 0xFF) = BitVec.ofNat 8 n := by
    intro n
    apply BitVec.eq_of_toNat_eq
    rw [show n &&& 0xFF = n % 2 ^ 8 from Nat.and_two_pow_sub_one_eq_mod n 8, BitVec.toNat_ofNat, BitVec.toNat_ofNat, Nat.mod_mod]
  have htop : (BitVec.ofNat 24 crc >>> 16).setWidth 8 = BitVec.ofNat 8 (crc >>> 16) := by
    apply BitVec.eq_of_toNat_eq
    simp only [BitVec.toNat_setWidth, BitVec.toNat_ushiftRight, BitVec.toNat_ofNat, Nat.shiftRight_eq_div_pow]
    omega
  rw [hmask, htop, BitVec.ofNat_xor, BitVec.ofNat_toNat, BitVec.setWidth_eq]

/-- A step on 24 bits is the low 24 bits of a step on unbounded integers (R123, D10). -/
theorem crcByte_ofNat (t : Vector (BitVec 24) 256) (crc : Nat) (x : Byte) :
    crcByte t (BitVec.ofNat 24 crc) x = BitVec.ofNat 24 (crcLoopByte t crc x) := by
  rw [crcByte, crcIndex_ofNat, crcLoopByte, BitVec.ofNat_xor, BitVec.ofNat_toNat, BitVec.setWidth_eq]
  congr 1
  apply BitVec.eq_of_toNat_eq
  simp [Nat.shiftLeft_eq]

theorem foldl_crcByte_ofNat (t : Vector (BitVec 24) 256) (d : List Byte) (crc : Nat) :
    d.foldl (crcByte t) (BitVec.ofNat 24 crc) = BitVec.ofNat 24 (d.foldl (crcLoopByte t) crc) := by
  induction d generalizing crc with
  | nil => rfl
  | cons x xs ih => rw [List.foldl_cons, List.foldl_cons, crcByte_ofNat, ih]

/-- The CRC of the model is the loop of R123 over unbounded integers, masked once. -/
theorem toNat_crc24 (t : Vector (BitVec 24) 256) (d : List Byte) : (crc24 t d).toNat = crcLoop t d := by
  rw [crc24, foldl_crcByte_ofNat, BitVec.toNat_ofNat, crcLoop_eq_foldl]

/-! ## The record of a frame as bit ranges -/

theorem matchFlag_ofNat (c : BitVec 24) {v : Nat} (h : v < 2 ^ 24) :
    matchFlag c (BitVec.ofNat 24 v) = decide (c.toNat = v) := by
  simp only [matchFlag, beq_eq_decide, BitVec.toNat_eq, BitVec.toNat_ofNat, Nat.mod_eq_of_lt h]

/-- The embedded CRC field is the last three bytes (R126). -/
theorem beNat_crcField {b : List Byte} (hl : 3 ≤ b.length) :
    beNat (b.drop (b.length - 3)) = bits b (8 * b.length - 23) (8 * b.length) := by
  rw [beNat_drop (by omega), show 8 * (b.length - 3) + 1 = 8 * b.length - 23 by omega]

/-- The address field holds its value in both forms (R142). -/
theorem addr_of_bits (b : List Byte) :
    ({ val := BitVec.ofNat 24 (beNat b / 2 ^ (8 * b.length - 32)), str := hexpad 6 (beNat b / 2 ^ (8 * b.length - 32) % 2 ^ 24) }
      : Addr) = addrOf (bits b 9 32) := by
  rw [addrOf, ofNat_bits rfl (show 32 - 9 + 1 = 24 from rfl), bits]

/-- The model's frame record is the one of R91 and R92. -/
theorem recordOf_eq_recordFor (t : Vector (BitVec 24) 256) (mode : Mode) {b : List Byte} (p : Payload) (hl : 4 ≤ b.length) :
    recordOf t mode b p = recordFor b mode (crc24 t (b.take (b.length - 3))) p := by
  have hcrc : bits b (8 * b.length - 23) (8 * b.length) < 2 ^ 24 := by
    have := bits_lt b (8 * b.length - 23) (8 * b.length)
    rwa [show 8 * b.length - (8 * b.length - 23) + 1 = 24 by omega] at this
  have hdf : beNat b / 2 ^ (8 * b.length - 32) / 2 ^ 27 = beNat b / 2 ^ (8 * b.length - 5) := by
    rw [Nat.div_div_eq_div_mul, ← pow_add, show 8 * b.length - 32 + 27 = 8 * b.length - 5 by omega]
  have hca : beNat b / 2 ^ (8 * b.length - 32) / 2 ^ 24 = beNat b / 2 ^ (8 * b.length - 8) := by
    rw [Nat.div_div_eq_div_mul, ← pow_add, show 8 * b.length - 32 + 24 = 8 * b.length - 8 by omega]
  simp only [recordOf, recordFor, addr_of_bits, beNat_crcField (by omega : 3 ≤ b.length), matchFlag_ofNat _ hcrc, hdf, hca,
    ofNat_bits (b := b) (s := 1) (e := 5) rfl rfl, ofNat_bits (b := b) (s := 6) (e := 8) rfl rfl]

/-! ## FRAME_F by length, DF and type code -/

/-- The downlink format by division (R91). -/
theorem downlinkFormat_bits {b : List Byte} (hl : b.length = 14) : beNat b / 2 ^ 107 = bits b 1 5 := by
  have hlt := beNat_lt_two_pow b
  simp only [bits, hl] at hlt ⊢
  omega

/-- The type code and the Q bit of a frame's ME field, numbered in the frame (R92). -/
theorem meField_bits {b : List Byte} (hl : b.length = 14) :
    bits ((b.drop 4).take 7) 1 5 = bits b 33 37 ∧ bits ((b.drop 4).take 7) 16 16 = bits b 48 48 := by
  obtain ⟨hlen, hv⟩ := beNat_meOf b hl
  simp only [bits, hlen, hv, hl]
  omega

/-- The Gray-code frames are those of DF 17 with a barometric position whose Q is 0 (R182). -/
theorem grayFrame_iff (b : List Byte) : grayFrame b ↔
    b.length = 14 ∧ bits b 1 5 = 17 ∧ 9 ≤ bits b 33 37 ∧ bits b 33 37 ≤ 18 ∧ bits b 48 48 = 0 := by
  refine and_congr_right fun hl => ?_
  rw [downlinkFormat_bits hl]
  simp only [bits, hl]
  exact Iff.rfl

/-- A short frame passes its data through, whatever its DF (R196, R197). -/
theorem frameF_seven (t : Vector (BitVec 24) 256) {b : List Byte} (hl : b.length = 7) :
    frameF t b = .ok (recordFor b .short (crc24 t (b.take 4)) (.passthrough (hexpad 6 (bits b 33 56)))) := by
  rw [frameF_short t b hl, recordOf_eq_recordFor _ _ _ (by omega), passF, beNat_of_sliceF (sliceF_data b hl), List.length_drop, hl]

/-- An extended frame with another DF than 17 passes its ME field through (R196, R197). -/
theorem frameF_fourteen_passthrough (t : Vector (BitVec 24) 256) {b : List Byte} (hl : b.length = 14) (hdf : bits b 1 5 ≠ 17) :
    frameF t b = .ok (recordFor b .extended (crc24 t (b.take 11)) (.passthrough (hexpad 14 (bits b 33 88)))) := by
  rw [frameF_extended t b hl, downlinkFormat_bits hl, if_neg hdf]
  simp only [except_bind_ok, except_pure]
  rw [recordOf_eq_recordFor _ _ _ (by omega), passF, beNat_of_sliceF (sliceF_me b hl), (beNat_meOf b hl).1, hl]

/-- An extended frame with DF 17 carries its ME field's variant (R197, R198). -/
theorem frameF_fourteen_mepay (t : Vector (BitVec 24) 256) {b : List Byte} {m : MeVariant} (hl : b.length = 14)
    (hdf : bits b 1 5 = 17) (hm : meF ((b.drop 4).take 7) = .ok m) :
    frameF t b = .ok (recordFor b .extended (crc24 t (b.take 11)) (.mepay m)) := by
  rw [frameF_extended t b hl, downlinkFormat_bits hl, if_pos hdf, hm]
  simp only [except_bind_ok, except_pure]
  rw [recordOf_eq_recordFor _ _ _ (by omega), hl]

theorem frameF_of_grayFrame (t : Vector (BitVec 24) 256) {b : List Byte} (h : grayFrame b) :
    frameF t b = .error .unsupportedEncoding := by
  rcases frameF_cases t b with ⟨-, -, -, -, -, hn⟩ | ⟨herr, -⟩ | ⟨-, -, h14⟩
  · exact absurd h hn
  · exact herr
  · exact absurd h.1 h14

theorem frameF_of_length (t : Vector (BitVec 24) 256) {b : List Byte} (h7 : b.length ≠ 7) (h14 : b.length ≠ 14) :
    frameF t b = .error .inputFormat := by
  rw [frameF, if_neg h7, if_neg h14]

theorem frameF_of_supported (t : Vector (BitVec 24) 256) {b : List Byte} (hl : b.length = 7 ∨ b.length = 14)
    (h : ¬ grayFrame b) : ∃ r, frameF t b = .ok r := by
  rcases frameF_cases t b with ⟨r, hr, -⟩ | ⟨-, hgray⟩ | ⟨-, h7, h14⟩
  · exact ⟨r, hr⟩
  · exact absurd hgray h
  · exact absurd hl (not_or.mpr ⟨h7, h14⟩)

/-! ## DECFR by what FRAME_F answers -/

/-- DECFR completes with the record FRAME_F gives (R200). -/
theorem exec_decfr_of_ok {s : State} {r : FrameRecord} (h : frameF s.crcTable (bufOperand s) = .ok r) :
    exec .decfr s = .next (ended s 0x00#8 (.frame r)) := by
  show execDecfr s = _
  rw [execDecfr, h]
  rfl

/-- DECFR raises FRAME_F's error (R182, R200). -/
theorem exec_decfr_of_error {s : State} {e : Err} (h : frameF s.crcTable (bufOperand s) = .error e) :
    exec .decfr s = .next (ended s (errCode e) .none) := by
  show execDecfr s = _
  rw [execDecfr, h]
  rfl

/-- Settles O47: FRAME_F by length, DF and type code, its CRC the loop of `toNat_crc24`. -/
theorem decfrDecodesEveryFrame : Obligations.DecfrDecodesEveryFrame := by
  unfold Obligations.DecfrDecodesEveryFrame
  rintro s b rfl
  refine ⟨fun hl => ?_, fun hl hdf => ?_, fun hl hdf htc => ?_, fun hl hdf h9 h18 hq => ?_, fun h7 h14 => ?_⟩
  · exact ⟨_, toNat_crc24 _ _, exec_decfr_of_ok (frameF_seven _ hl)⟩
  · exact ⟨_, toNat_crc24 _ _, exec_decfr_of_ok (frameF_fourteen_passthrough _ hl hdf)⟩
  · obtain ⟨hTC, hQ⟩ := meField_bits hl
    rw [← hTC, ← hQ] at htc
    obtain ⟨m, hm⟩ := meF_of_supported (beNat_meOf _ hl).1 htc
    exact ⟨_, m, toNat_crc24 _ _, hm, exec_decfr_of_ok (frameF_fourteen_mepay _ hl hdf hm)⟩
  · have hgray := (grayFrame_iff _).mpr ⟨hl, hdf, h9, h18, hq⟩
    obtain ⟨hTC, hQ⟩ := meField_bits hl
    rw [← hTC] at h9 h18
    rw [← hQ] at hq
    exact ⟨meF_of_gray (beNat_meOf _ hl).1 h9 h18 hq, exec_decfr_of_error (frameF_of_grayFrame _ hgray)⟩
  · exact exec_decfr_of_error (frameF_of_length _ h7 h14)

/-! ## Frame strings -/

/-- Byte `k` of paired digits is made of digits `2k` and `2k + 1`, the first the high nibble (R81). -/
theorem pairBytes_getElem? (ds : List Nat) {k : Nat} (hk : k < ds.length / 2) :
    (pairBytes ds)[k]? = some (BitVec.ofNat 8 (16 * ds.getD (2 * k) 0 + ds.getD (2 * k + 1) 0)) := by
  induction ds using pairBytes.induct generalizing k with
  | case1 hi lo rest ih =>
    cases k with
    | zero => rfl
    | succ k => exact ih (by simp only [List.length_cons] at hk; omega)
  | case2 ds hshort =>
    match ds, hshort, hk with
    | [], _, hk => exact absurd hk (by simp)
    | [_], _, hk => exact absurd hk (by simp)
    | hi :: lo :: rest, hshort, _ => exact absurd rfl (hshort hi lo rest)

/-- The bytes that digits spell are their pairs (R81, R201). -/
theorem pairBytes_of_bytesOfDigits {b : List Byte} {ds : List Nat} (h : BytesOfDigits b ds) : pairBytes ds = b := by
  obtain ⟨hlen, hbytes⟩ := h
  have hpairs : (pairBytes ds).length = b.length := by
    rw [pairBytes_length]
    omega
  apply List.ext_getElem?
  intro k
  rcases Nat.lt_or_ge k b.length with hk | hk
  · rw [pairBytes_getElem? ds (by omega), hbytes k hk]
  · rw [List.getElem?_eq_none (by omega), List.getElem?_eq_none hk]

/-- PARSE_FRAME_STR of digits that spell bytes is those bytes (R81, R201). -/
theorem parseFrameStr_of_bytesOfDigits {cs : Text} {b : List Byte} {ds : List Nat} (hd : hexDigits cs = some ds)
    (h : BytesOfDigits b ds) : parseFrameStr cs = .ok b := by
  have hlen := hexDigits_length cs ds hd
  have heven : ¬ cs.length % 2 = 1 := by
    have := h.1
    omega
  simp only [parseFrameStr, if_neg heven, hd, pairBytes_of_bytesOfDigits h]

/-- DECFRS of a well-formed string goes on as DECFR on its bytes (R202). -/
theorem exec_decfrs_of_parsed {s : State} {b : List Byte} (hp : parseFrameStr (strOperand s) = .ok b) :
    exec .decfrs s = finish s (frameF s.crcTable b >>= fun r => pure (.frame r)) := by
  show execDecfrs s = _
  rw [execDecfrs, hp]
  rfl

/-- DECFRS of a string that is no frame raises the format error before anything else (R202). -/
theorem exec_decfrs_of_error {s : State} {e : Err} (hp : parseFrameStr (strOperand s) = .error e) :
    exec .decfrs s = .next (ended s (errCode e) .none) := by
  show execDecfrs s = _
  rw [execDecfrs, hp]
  rfl

/-- Every string that is no pairs of hexadecimal digits of 7 or 14 bytes is INPUT_FORMAT (R201, R202). -/
theorem exec_decfrs_malformed {s : State}
    (h : s.strLen.val % 2 = 1 ∨ hexDigits (strOperand s) = none ∨ (s.strLen.val ≠ 14 ∧ s.strLen.val ≠ 28)) :
    exec .decfrs s = .next (ended s 0x01#8 .none) := by
  rcases parseFrameStr_cases (strOperand s) with ⟨ds, hds, heven, hp, hlen⟩ | ⟨herr, -⟩
  · rw [strOperand_length] at heven hlen
    have hlength : s.strLen.val ≠ 14 ∧ s.strLen.val ≠ 28 := by
      rcases h with hodd | hnone | hlength
      · omega
      · rw [hds] at hnone
        cases hnone
      · exact hlength
    rw [exec_decfrs_of_parsed hp, frameF_of_length _ (by omega) (by omega)]
    rfl
  · exact exec_decfrs_of_error herr

/-- Settles O50: the digits of a frame parse to its bytes, and from there DECFRS is DECFR on those bytes. -/
theorem decfrsDecodesTheHexString : Obligations.DecfrsDecodesTheHexString := by
  unfold Obligations.DecfrsDecodesTheHexString
  refine ⟨?_, ?_, fun s h => exec_decfrs_malformed h, ?_⟩
  · exact soleWord_encode (i := .decfrs) rfl fun j hj => by cases j <;> simp [opcode] at hj ⊢
  · intro s b ds hds hb hl hgray
    obtain ⟨r, hr⟩ := frameF_of_supported s.crcTable hl hgray
    refine ⟨r, hr, ?_, fun t hbuf htable => exec_decfr_of_ok (by rw [hbuf, htable, hr])⟩
    rw [exec_decfrs_of_parsed (parseFrameStr_of_bytesOfDigits hds hb), hr]
    rfl
  · intro s b ds hds hb hgray
    rw [exec_decfrs_of_parsed (parseFrameStr_of_bytesOfDigits hds hb), frameF_of_grayFrame _ hgray]
    rfl

end Sys2Proof.Proofs.EncodingFamily

namespace Sys2Proof.Proofs.SlicerFamily

open Sys2Proof Sys2Proof.Machine Sys2Proof.Claims Sys2Proof.Proofs.StateFamily Sys2Proof.Proofs.EncodingFamily

/-! ## Commands with two immediates -/

/-- An OP that decodes with every A and B has the words of a two-immediate command; no word with another C than 0 is
accepted (R61, R62). -/
theorem twoImmediateWord_of_decodeOp {op : BitVec 8} {i : BitVec 8 → BitVec 8 → Instr}
    (hdec : ∀ a b, decodeOp op a b = .ok (i a b)) : TwoImmediateWord op i := by
  refine ⟨fun a b s => ?_, fun v s _ hc => step_issue_illegal fun j hj => hc (decode_ok_fields hj).1⟩
  have hword : decode (wordOf op a b) = .ok (i a b) := by rw [decode_wordOf, hdec]
  exact step_issue_legal hword

/-! ## The slice of a valid range -/

/-- SLICE_F of a valid range has the least number of bytes that hold the range (R102). -/
theorem exists_sliceF_ok {b : List Byte} {s e : Nat} (h1 : 1 ≤ s) (h2 : s ≤ e) (h3 : e ≤ 8 * b.length) :
    ∃ r, sliceF b s e = .ok r ∧ r.length = (e - s + 1 + 7) / 8 :=
  ⟨_, sliceF_valid b s e h1 h2 h3, beBytes_length _ _⟩

/-- The slice of the whole range is the sequence itself (R102). -/
theorem sliceF_whole {b : List Byte} (h : 1 ≤ b.length) : sliceF b 1 (8 * b.length) = .ok b := sliceF_tail b 0 h

/-! ## SLICE by what SLICE_F answers -/

/-- SLICE completes with the slice (R104). -/
theorem exec_slice_of_ok {s : State} {a b : BitVec 8} {r : List Byte}
    (h : sliceF (bufOperand s) a.toNat b.toNat = .ok r) : exec (.slice a b) s = .next (ended s 0x00#8 (.bytes r)) := by
  show execSlice a b s = _
  rw [execSlice, immediate, immediate, h]
  rfl

/-- SLICE raises SLICE_F's error (R104). -/
theorem exec_slice_of_error {s : State} {a b : BitVec 8} {e : Err}
    (h : sliceF (bufOperand s) a.toNat b.toNat = .error e) : exec (.slice a b) s = .next (ended s (errCode e) .none) := by
  show execSlice a b s = _
  rw [execSlice, immediate, immediate, h]
  rfl

/-- Settles O15: SLICE ends as SLICE_F answers, and the whole range of a buffer is the buffer. -/
theorem sliceExtractsTheRange : Obligations.SliceExtractsTheRange := by
  unfold Obligations.SliceExtractsTheRange
  refine ⟨twoImmediateWord_of_decodeOp fun _ _ => rfl, ?_, ?_, ?_, ?_⟩
  · intro a b s h1 h2 h3
    rw [← bufOperand_length] at h3
    obtain ⟨r, hr, hlen⟩ := exists_sliceF_ok h1 h2 h3
    exact ⟨r, hlen, beNat_of_sliceF hr, exec_slice_of_ok hr⟩
  · intro a b s h
    rw [← bufOperand_length] at h
    exact exec_slice_of_error (sliceF_invalid _ _ _ h)
  · intro b s hb hne
    rw [← bufOperand_length] at hb hne
    have hwhole : sliceF (bufOperand s) (1#8).toNat b.toNat = .ok (bufOperand s) := by
      rw [hb]
      exact sliceF_whole hne
    exact exec_slice_of_ok hwhole
  · intro s hs
    have hexample : sliceF (bufOperand s) (4#8).toNat (13#8).toNat = .ok [0x02#8, 0x01#8] := by
      rw [hs]
      decide
    exact exec_slice_of_ok hexample

/-! ## SLICEB by what SLICE_F answers -/

/-- SLICEB completes with the slice, and loads it into BUF: the bytes above it and every other register stay (R105). -/
theorem exec_sliceb_of_ok {s : State} {a b : BitVec 8} {r : List Byte} (hw : Memory.wf 14 s.buf = true)
    (h : sliceF (bufOperand s) a.toNat b.toNat = .ok r) :
    ∃ t, exec (.sliceb a b) s = .next t ∧ bufOperand t = r ∧ t.bufLen.val = r.length
      ∧ (∀ x, r.length ≤ x → t.buf.read x = s.buf.read x)
      ∧ t = { s with buf := t.buf, bufLen := t.bufLen, status := 0x00#8, result := .bytes r } := by
  obtain ⟨hbuf, hlen, -, habove⟩ := State.loadBuf_spec s r hw (slice_fits h).2
  refine ⟨(s.loadBuf r).complete (.bytes r), ?_, hbuf, hlen, habove, rfl⟩
  show execSliceb a b s = _
  rw [execSliceb, immediate, immediate, h]

/-- SLICEB raises SLICE_F's error, and BUF keeps its value (R105, R222). -/
theorem exec_sliceb_of_error {s : State} {a b : BitVec 8} {e : Err}
    (h : sliceF (bufOperand s) a.toNat b.toNat = .error e) : exec (.sliceb a b) s = .next (ended s (errCode e) .none) := by
  show execSliceb a b s = _
  rw [execSliceb, immediate, immediate, h]
  rfl

/-- Settles O16: SLICEB ends as SLICE_F answers, and a slice of BUF fits BUF; bits 33 to 88 are the ME field. -/
theorem slicebReplacesBuf : Obligations.SlicebReplacesBuf := by
  unfold Obligations.SlicebReplacesBuf
  refine ⟨twoImmediateWord_of_decodeOp fun _ _ => rfl, ?_, ?_, ?_⟩
  · intro a b s hw h1 h2 h3
    rw [← bufOperand_length] at h3
    obtain ⟨r, hr, hlen⟩ := exists_sliceF_ok h1 h2 h3
    obtain ⟨t, hend⟩ := exec_sliceb_of_ok hw hr
    exact ⟨r, t, hlen, beNat_of_sliceF hr, hend⟩
  · intro a b s h
    rw [← bufOperand_length] at h
    exact exec_sliceb_of_error (sliceF_invalid _ _ _ h)
  · intro s hw hs
    have hme : sliceF (bufOperand s) (33#8).toNat (88#8).toNat
        = .ok [0x20#8, 0x2C#8, 0xC3#8, 0x71#8, 0xC3#8, 0x2C#8, 0xE0#8] := by
      rw [hs]
      exact sliceF_me _ rfl
    obtain ⟨t, hnext, hbuf, hlen, -, ht⟩ := exec_sliceb_of_ok hw hme
    exact ⟨t, hnext, hbuf, Fin.ext hlen, congrArg State.result ht⟩

/-! ## Sequences of ranges -/

/-- A sequence of ranges answers its first range's slice before the slices of the rest (R106). -/
theorem sliceSeq_cons_ok_iff {b : List Byte} {p : Nat × Nat} {rest : List (Nat × Nat)} {rs : List (List Byte)} :
    sliceSeq b (p :: rest) = .ok rs
      ↔ ∃ r rs', sliceF b p.1 p.2 = .ok r ∧ sliceSeq b rest = .ok rs' ∧ rs = r :: rs' := by
  rw [sliceSeq]
  cases sliceF b p.1 p.2 with
  | error e => simp
  | ok r =>
    cases sliceSeq b rest with
    | error e => simp
    | ok rs' => simp [eq_comm]

/-- A sequence fails with its first range or with the rest, as SLICE_RANGE is the only error of a range (R101, R106). -/
theorem sliceSeq_cons_error {b : List Byte} {p : Nat × Nat} {rest : List (Nat × Nat)}
    (h : sliceF b p.1 p.2 = .error .sliceRange ∨ sliceSeq b rest = .error .sliceRange) :
    sliceSeq b (p :: rest) = .error .sliceRange := by
  rw [sliceSeq]
  rcases sliceF_cases b p.1 p.2 with ⟨r, hr, -⟩ | ⟨herr, -⟩
  · rw [hr] at h ⊢
    rw [h.resolve_left (by simp)]
    rfl
  · rw [herr]
    rfl

/-- Settles O18, by induction on the ranges, as a sequence and `List.Forall₂` take a first range apart alike. -/
theorem rangesAreSlicedIndependently : Obligations.RangesAreSlicedIndependently := by
  unfold Obligations.RangesAreSlicedIndependently
  constructor
  · intro b ranges
    induction ranges with
    | nil => simp [sliceSeq, eq_comm]
    | cons p rest ih =>
      intro rs
      simp only [sliceSeq_cons_ok_iff, List.forall₂_cons_left_iff, ih]
  · intro b ranges hinvalid
    induction ranges with
    | nil => simp at hinvalid
    | cons p rest ih =>
      rw [List.exists_mem_cons_iff] at hinvalid
      exact sliceSeq_cons_error (hinvalid.imp (sliceF_invalid b _ _) ih)

end Sys2Proof.Proofs.SlicerFamily

namespace Sys2Proof.Proofs.CrcFamily

open Sys2Proof Sys2Proof.Machine Sys2Proof.Claims Sys2Proof.Proofs.StateFamily Sys2Proof.Proofs.EncodingFamily

/-! ## The words of a command without immediates -/

/-- The decoder reads back every encoded command (R66, R67). -/
theorem decode_encode (i : Instr) : decode (encode i) = .ok i := by
  rw [encode, decode_wordOf]
  cases i <;> rfl

/-- A command without immediates has one word: a command with its OP has no immediates either, so it encodes to the same
word and is the same command (R62, R65). -/
theorem soleWord_of_no_immediate {i : Instr} (hi : opcode i ∉ [0x01#8, 0x02#8, 0x08#8, 0x18#8]) : SoleWord i (encode i) := by
  refine soleWord_encode (decode_encode i) fun j hj => ?_
  obtain ⟨hAi, hBi⟩ := imm_zero_of_opcode hi
  obtain ⟨hAj, hBj⟩ := imm_zero_of_opcode (hj ▸ hi)
  have hsame : encode j = encode i := by rw [encode, encode, hj, hAi, hBi, hAj, hBj]
  exact Except.ok.inj (by rw [← decode_encode j, hsame, decode_encode i])

/-! ## CRCTAB -/

/-- Every index encodes to a word that runs CRCTAB with that index (R62, R124). -/
theorem decode_crctab_word (k : BitVec 8) : decode ((k.setWidth 32 <<< 8) ||| 0x08#32) = .ok (.crctab k) := by
  have hword : (k.setWidth 32 <<< 8) ||| 0x08#32 = wordOf 0x08#8 k 0#8 := by simp [wordOf]
  rw [hword, decode_wordOf]
  rfl

/-- CRCTAB completes with the entry at its index (R124). -/
theorem exec_crctab_of_entry {k : BitVec 8} {s : State} {x : BitVec 24} (h : tableAt s.crcTable k = x) :
    exec (.crctab k) s = .next (ended s 0x00#8 (.nat x.toNat)) := by
  subst h
  rfl

/-- Settles O20: the word by the decoder, illegal words by O5, the three entries by TABLE_F. -/
theorem crctabReadsOneEntry : Obligations.CrctabReadsOneEntry := by
  unfold Obligations.CrctabReadsOneEntry
  refine ⟨fun k s => step_issue_legal (decode_crctab_word k), ?_, fun k s => exec_crctab_of_entry rfl, ?_⟩
  · rintro v s hop (hB | hC)
    · exact illegalWordsEndWithStatusSix s v (.inr (.inr (.inl ⟨hop, hB⟩)))
    · exact illegalWordsEndWithStatusSix s v (.inl hC)
  · intro s htable
    have hentry : ∀ k, tableAt s.crcTable k = tableF k := by
      rw [htable]
      exact tableAt_tableInit
    exact ⟨exec_crctab_of_entry (x := 0#24) ((hentry _).trans (by decide)),
      exec_crctab_of_entry (x := 0xFFF409#24) ((hentry _).trans (by decide)),
      exec_crctab_of_entry (x := 0x0706C0#24) ((hentry _).trans (by decide))⟩

/-! ## The running CRC of zero bytes and of an appended CRC -/

/-- The CRC of the model as a 24-bit value of the loop of R123. -/
theorem crc24_eq_ofNat_crcLoop (t : Vector (BitVec 24) 256) (d : List Byte) :
    crc24 t d = BitVec.ofNat 24 (crcLoop t d) := by
  rw [← toNat_crc24, BitVec.ofNat_toNat, BitVec.setWidth_eq]

theorem tableAt_tableInit_zero : tableAt tableInit 0#8 = 0#24 := by
  rw [tableAt_tableInit]
  decide

/-- A zero byte keeps a running CRC of 0 (R131). -/
theorem crcByte_zero {t : Vector (BitVec 24) 256} (ht : tableAt t 0#8 = 0#24) : crcByte t 0#24 0x00#8 = 0#24 :=
  congrArg (· ^^^ 0#24) ht

/-- Leading zero bytes do not change the CRC (R131). -/
theorem crc24_replicate_zero_append {t : Vector (BitVec 24) 256} (ht : tableAt t 0#8 = 0#24) (n : Nat) (d : List Byte) :
    crc24 t (List.replicate n 0x00#8 ++ d) = crc24 t d := by
  induction n with
  | zero => rfl
  | succ n ih =>
    rw [← ih, List.replicate_succ, List.cons_append, crc24, List.foldl_cons, crcByte_zero ht, crc24]

/-- The byte in bits 23..16 of the running CRC, the one that the table index of the next step is made of (R123). -/
def crcTop (c : BitVec 24) : Byte := (c >>> 16).setWidth 8

/-- A data byte equal to the top byte of the running CRC makes the index 0, and only the shift is left (R123). -/
theorem crcByte_crcTop {t : Vector (BitVec 24) 256} (ht : tableAt t 0#8 = 0#24) (c : BitVec 24) :
    crcByte t c (crcTop c) = c <<< 8 := by
  rw [crcByte, crcTop, BitVec.xor_self, ht, BitVec.zero_xor]

/-- The three bytes of a CRC are the top bytes that the running CRC shows as it is shifted out. -/
theorem beBytes_three_toNat (c : BitVec 24) :
    beBytes 3 c.toNat = [crcTop c, crcTop (c <<< 8), crcTop (c <<< 8 <<< 8)] := by
  simp only [beBytes, crcTop, List.cons.injEq, and_true]
  refine ⟨?_, ?_, ?_⟩ <;> apply BitVec.eq_of_toNat_eq <;>
    simp only [BitVec.toNat_ofNat, BitVec.toNat_setWidth, BitVec.toNat_ushiftRight, BitVec.toNat_shiftLeft,
      Nat.shiftLeft_eq, Nat.shiftRight_eq_div_pow] <;> omega

/-- Feeding a running CRC its own three bytes shifts it out (R131). -/
theorem foldl_crcByte_own_bytes {t : Vector (BitVec 24) 256} (ht : tableAt t 0#8 = 0#24) (c : BitVec 24) :
    (beBytes 3 c.toNat).foldl (crcByte t) c = 0#24 := by
  have hout : c <<< 8 <<< 8 <<< 8 = 0#24 := by
    rw [← BitVec.shiftLeft_add, ← BitVec.shiftLeft_add]
    exact BitVec.shiftLeft_eq_zero (by decide)
  simp only [beBytes_three_toNat, List.foldl_cons, List.foldl_nil, crcByte_crcTop ht, hout]

/-- A sequence followed by its own CRC has CRC 0 (R131). -/
theorem crc24_append_own_crc {t : Vector (BitVec 24) 256} (ht : tableAt t 0#8 = 0#24) (d : List Byte) :
    crc24 t (d ++ beBytes 3 (crc24 t d).toNat) = 0#24 := by
  rw [crc24, List.foldl_append]
  exact foldl_crcByte_own_bytes ht (crc24 t d)

/-! ## CRCGEN by the CRC of BUF -/

/-- CRCGEN completes with the CRC of BUF and its unpadded hex form (R125). -/
theorem exec_crcgen_of_crc24 {s : State} {c : BitVec 24} (h : crc24 s.crcTable (bufOperand s) = c) :
    exec .crcgen s = .next (ended s 0x00#8 (.crc c none none (hexlower c.toNat))) := by
  subst h
  rfl

/-- CRCGEN with the CRC given as the loop over unbounded integers of some sequence with the same CRC as BUF (R123). -/
theorem exec_crcgen_of_crcLoop {s : State} {t : Vector (BitVec 24) 256} {d : List Byte}
    (h : crc24 s.crcTable (bufOperand s) = crc24 t d) :
    exec .crcgen s = .next (ended s 0x00#8 (.crc (BitVec.ofNat 24 (crcLoop t d)) none none (hexlower (crcLoop t d)))) := by
  rw [exec_crcgen_of_crc24 h, ← crc24_eq_ofNat_crcLoop, toNat_crc24]

theorem hexlower_zero : hexlower 0 = ascii "0" := by decide

/-- A BUF with CRC 0 gives 0 and "0" (R125). -/
theorem exec_crcgen_of_crc24_zero {s : State} (h : crc24 s.crcTable (bufOperand s) = 0#24) :
    exec .crcgen s = .next (ended s 0x00#8 (.crc 0#24 none none (ascii "0"))) := by
  rw [exec_crcgen_of_crc24 h, BitVec.toNat_ofNat, Nat.zero_mod, hexlower_zero]

theorem bufOperand_of_bufLen_zero {s : State} (h : s.bufLen = 0) : bufOperand s = [] :=
  List.length_eq_zero_iff.mp (by rw [bufOperand_length, h]; rfl)

/-- The CRC of the example of R125, over the table that reset builds. -/
theorem crc24_crcgen_example : crc24 tableInit [0x5D#8, 0x48#8, 0x40#8, 0xD6#8] = 0xF8740F#24 := by decide +kernel

/-- Settles O24: CRCGEN ends with the CRC of BUF, and the cases are laws of the CRC over a table whose entry 0 is 0. -/
theorem crcgenRunsOverBuf : Obligations.CrcgenRunsOverBuf := by
  unfold Obligations.CrcgenRunsOverBuf
  refine ⟨soleWord_of_no_immediate (i := .crcgen) (by decide), fun s => exec_crcgen_of_crcLoop rfl,
    fun s hlen => ?_, fun s n d htable hbuf => ?_, fun s d htable hbuf => ?_, fun s htable hbuf => ?_⟩
  · refine exec_crcgen_of_crc24_zero ?_
    rw [bufOperand_of_bufLen_zero hlen]
    rfl
  · refine exec_crcgen_of_crcLoop ?_
    rw [htable, hbuf, crc24_replicate_zero_append tableAt_tableInit_zero]
  · refine exec_crcgen_of_crc24_zero ?_
    rw [htable, hbuf, ← toNat_crc24, crc24_append_own_crc tableAt_tableInit_zero]
  · exact exec_crcgen_of_crc24 (by rw [htable, hbuf, crc24_crcgen_example])

/-! ## CRCCHK by the CRC of the data and the embedded field -/

/-- CRCCHK of 3 bytes or more completes with the CRC of the data, the embedded field and their comparison (R126, R128). -/
theorem exec_crcchk_of_fields {s : State} {c e : BitVec 24} (hl : 3 ≤ s.bufLen.val)
    (hc : crc24 s.crcTable ((bufOperand s).take (s.bufLen.val - 3)) = c)
    (he : beNat ((bufOperand s).drop (s.bufLen.val - 3)) = e.toNat) :
    exec .crcchk s = .next (ended s 0x00#8 (.crc c (some e) (some (decide (c = e))) (hexlower c.toNat))) := by
  show execCrcchk s = _
  rw [execCrcchk, crcCheck_valid _ _ (by rwa [bufOperand_length]), bufOperand_length, hc, he, BitVec.ofNat_toNat,
    BitVec.setWidth_eq]
  rfl

/-- CRCCHK of fewer than 3 bytes raises INPUT_FORMAT (R126, R128). -/
theorem exec_crcchk_of_short {s : State} (hl : s.bufLen.val < 3) : exec .crcchk s = .next (ended s 0x01#8 .none) := by
  show execCrcchk s = _
  rw [execCrcchk, crcCheck_short _ _ (by rwa [bufOperand_length])]
  rfl

/-- A value of three bytes fits the embedded field. -/
theorem beNat_eq_toNat_ofNat {b : List Byte} (hl : b.length = 3) : beNat b = (BitVec.ofNat 24 (beNat b)).toNat := by
  have hlt : beNat b < 2 ^ 24 := by simpa only [hl] using beNat_lt_two_pow b
  rw [BitVec.toNat_ofNat, Nat.mod_eq_of_lt hlt]

/-- The last three bytes of BUF, where it has them (R126). -/
theorem bufOperand_drop_length {s : State} (hl : 3 ≤ s.bufLen.val) :
    ((bufOperand s).drop (s.bufLen.val - 3)).length = 3 := by
  rw [List.length_drop, bufOperand_length]
  omega

/-- An embedded field is 0 exactly when its three bytes are (R128). -/
theorem zero_eq_ofNat_beNat_iff {b : List Byte} (hl : b.length = 3) :
    0#24 = BitVec.ofNat 24 (beNat b) ↔ b = [0x00#8, 0x00#8, 0x00#8] := by
  rw [BitVec.toNat_eq, ← beNat_eq_toNat_ofNat hl]
  refine ⟨fun h => beNat_injective hl h.symm, fun h => ?_⟩
  rw [h]
  rfl

/-- The data CRC of the example frame of R128, over the table that reset builds. -/
theorem crc24_crcchk_example : crc24 tableInit [0x8D#8, 0x48#8, 0x40#8, 0xD6#8, 0x20#8, 0x2C#8, 0xC3#8, 0x71#8, 0xC3#8,
    0x2C#8, 0xE0#8] = 0x576098#24 := by decide +kernel

/-- Settles O25: CRCCHK splits BUF before its last 3 bytes; with 3 bytes the data is empty and its CRC 0. -/
theorem crcchkComparesTheLastThreeBytes : Obligations.CrcchkComparesTheLastThreeBytes := by
  unfold Obligations.CrcchkComparesTheLastThreeBytes
  refine ⟨soleWord_of_no_immediate (i := .crcchk) (by decide), fun s hl => ?_, fun s hl => exec_crcchk_of_short hl,
    fun s hl => ?_, fun s htable hbuf => ?_⟩
  · have hemb := beNat_eq_toNat_ofNat (bufOperand_drop_length hl)
    exact ⟨_, _, toNat_crc24 _ _, hemb.symm, exec_crcchk_of_fields hl rfl hemb⟩
  · have hlen : (bufOperand s).length = 3 := by rw [bufOperand_length, hl]
    have hemb := beNat_eq_toNat_ofNat hlen
    have hend := exec_crcchk_of_fields (s := s) (c := 0#24) hl.ge (by rw [hl]; rfl) (by rw [hl]; exact hemb)
    rw [BitVec.toNat_ofNat, Nat.zero_mod, hexlower_zero, decide_eq_decide.mpr (zero_eq_ofNat_beNat_iff hlen)] at hend
    exact ⟨_, hend⟩
  · have hlen : s.bufLen.val = 14 := by rw [← bufOperand_length, hbuf]; rfl
    refine exec_crcchk_of_fields (c := 0x576098#24) (e := 0x576098#24) (by omega) ?_ ?_
    · rw [htable, hbuf, hlen]
      exact crc24_crcchk_example
    · rw [hbuf, hlen]
      rfl

end Sys2Proof.Proofs.CrcFamily

namespace Sys2Proof.Proofs.ScalarFamily

open Sys2Proof Sys2Proof.Machine Sys2Proof.Claims Sys2Proof.Proofs.EncodingFamily Sys2Proof.Proofs.CrcFamily

/-! ## A command that ends with what a function of its operand answers -/

/-- A command completes with the result of its function, wrapped as a RESULT of its kind. -/
theorem finish_bind_ok {α : Type} {s : State} {r : Except Err α} {x : α} (f : α → Result) (h : r = .ok x) :
    finish s (do let y ← r; return f y) = .next (ended s 0x00#8 (f x)) := by
  subst h
  rfl

/-- A command raises the error of its function. -/
theorem finish_bind_error {α : Type} {s : State} {r : Except Err α} {e : Err} (f : α → Result) (h : r = .error e) :
    finish s (do let y ← r; return f y) = .next (ended s (errCode e) .none) := by
  subst h
  rfl

/-! ## UINT -/

/-- The big-endian value of bytes read from a buffer is their sum with the weights of R141. -/
theorem beNat_readBytes (m : Memory) (a n : Nat) :
    beNat (m.readBytes a n) = ∑ k ∈ Finset.range n, (m.read (a + k)).toNat * 256 ^ (n - 1 - k) := by
  induction n generalizing a with
  | zero => rfl
  | succ n ih =>
    rw [Memory.readBytes, beNat, Memory.readBytes_length, ih, Finset.sum_range_succ', Nat.add_comm]
    simp only [Nat.add_zero, Nat.add_sub_cancel, Nat.sub_zero]
    refine congrArg (· + _) (Finset.sum_congr rfl fun k _ => ?_)
    rw [show a + 1 + k = a + (k + 1) by omega, show n - 1 - k = n - (k + 1) by omega]

theorem beNat_replicate_zero (n : Nat) : beNat (List.replicate n 0x00#8) = 0 := by
  induction n with
  | zero => rfl
  | succ n ih => rw [List.replicate_succ, beNat, ih, BitVec.toNat_ofNat, Nat.zero_mod, Nat.zero_mul]

/-- Leading zero bytes do not change the value (R141). -/
theorem beNat_replicate_zero_append (n : Nat) (d : List Byte) : beNat (List.replicate n 0x00#8 ++ d) = beNat d := by
  rw [beNat_append, beNat_replicate_zero, Nat.zero_mul, Nat.zero_add]

/-- UINT completes with the big-endian value of BUF (R141). -/
theorem exec_uint_of_beNat {s : State} {v : Nat} (h : beNat (bufOperand s) = v) :
    exec .uint s = .next (ended s 0x00#8 (.nat v)) := by
  subst h
  rfl

/-- Settles O27: UINT answers the big-endian value, which `beNat_readBytes` gives as the sum over BUF. -/
theorem uintIsTheBigEndianSum : Obligations.UintIsTheBigEndianSum := by
  unfold Obligations.UintIsTheBigEndianSum
  refine ⟨soleWord_of_no_immediate (i := .uint) (by decide), fun s => exec_uint_of_beNat ?_,
    fun s hlen => exec_uint_of_beNat ?_, fun s n d hbuf => exec_uint_of_beNat ?_,
    fun s hbuf => exec_uint_of_beNat ?_, fun s hbuf => exec_uint_of_beNat ?_⟩
  · rw [bufOperand, beNat_readBytes]
    simp only [Nat.zero_add]
  · rw [bufOperand_of_bufLen_zero hlen, beNat]
  · rw [hbuf, beNat_replicate_zero_append]
  · rw [hbuf]
    decide
  · rw [hbuf]
    decide

/-! ## Addresses from BUF and from IVAL -/

/-- ADDRB of a value in range. -/
theorem exec_addrb_of_le {s : State} (h : beNat (bufOperand s) ≤ 0xFFFFFF) :
    exec .addrb s = .next (ended s 0x00#8 (.addr (addrOf (beNat (bufOperand s))))) :=
  finish_bind_ok .addr (normAddr_eq_addrOf h)

/-- ADDRB of a value beyond 24 bits. -/
theorem exec_addrb_of_gt {s : State} (h : 0xFFFFFF < beNat (bufOperand s)) :
    exec .addrb s = .next (ended s 0x02#8 .none) :=
  finish_bind_error .addr (normAddr_invalid _ (by omega))

/-- Three bytes or fewer hold no value beyond 24 bits (R143). -/
theorem beNat_bufOperand_le_of_short {s : State} (hl : s.bufLen.val ≤ 3) : beNat (bufOperand s) ≤ 0xFFFFFF := by
  have hlt : beNat (bufOperand s) < 256 ^ s.bufLen.val := bufOperand_length s ▸ beNat_lt (bufOperand s)
  have hpow : 256 ^ s.bufLen.val ≤ 256 ^ 3 := Nat.pow_le_pow_right (by decide) hl
  omega

/-- Settles O28: NORM_ADDR on either side of its bound, and a short BUF stays on the near side. -/
theorem addrbNormalisesBuf : Obligations.AddrbNormalisesBuf := by
  unfold Obligations.AddrbNormalisesBuf
  refine ⟨soleWord_of_no_immediate (i := .addrb) (by decide), fun s => exec_addrb_of_le, fun s => exec_addrb_of_gt,
    fun s hl => ⟨_, exec_addrb_of_le (beNat_bufOperand_le_of_short hl)⟩, fun s hbuf => ?_⟩
  have hv : beNat (bufOperand s) = 0xABCDEF := by
    rw [hbuf]
    decide
  rw [exec_addrb_of_le (by omega), hv]
  rfl

/-- ADDRI once the host has written IVAL: NORM_ADDR of its signed value, with no model fault (R144). -/
theorem exec_addri_of_written {s : State} (hw : s.ivalW = true) :
    exec .addri s = finish s (do let r ← normAddr s.ival.toInt; return .addr r) := if_pos hw

/-- ADDRI of a value in range. -/
theorem exec_addri_of_le {s : State} {v : Nat} (hw : s.ivalW = true) (hi : s.ival.toInt = v) (hv : v ≤ 0xFFFFFF) :
    exec .addri s = .next (ended s 0x00#8 (.addr (addrOf v))) := by
  rw [exec_addri_of_written hw, hi]
  exact finish_bind_ok .addr (normAddr_eq_addrOf hv)

/-- ADDRI of a negative value or one beyond 24 bits. -/
theorem exec_addri_of_out_of_range {s : State} (hw : s.ivalW = true) (h : s.ival.toInt < 0 ∨ 0xFFFFFF < s.ival.toInt) :
    exec .addri s = .next (ended s 0x02#8 .none) := by
  rw [exec_addri_of_written hw]
  exact finish_bind_error .addr (normAddr_invalid _ h)

/-- Settles O29: NORM_ADDR of the signed IVAL where it is written, the model fault of `exec_fault_iff` where it is not. -/
theorem addriNormalisesIval : Obligations.AddriNormalisesIval := by
  unfold Obligations.AddriNormalisesIval
  refine ⟨soleWord_of_no_immediate (i := .addri) (by decide), fun s v => exec_addri_of_le,
    fun s => exec_addri_of_out_of_range, fun s hw => exec_fault_iff.mpr ⟨rfl, hw⟩, fun s hw hival => ?_⟩
  rw [exec_addri_of_le (v := 1) hw (by rw [hival]; decide) (by decide)]
  rfl

/-! ## TEXT6 -/

/-- TEXT6 completes with the text of the division loop on BUF (R150, R151). -/
theorem exec_text6_of_textLoop {s : State} {t : Text}
    (h : textLoop (8 * s.bufLen.val / 6) (beNat (bufOperand s)) [] = t) :
    exec .text6 s = .next (ended s 0x00#8 (.text t)) := by
  rw [← h, ← text6Loop_eq_textLoop, ← bufOperand_length]
  rfl

/-- Settles O34: the loop by shifts and masks is the loop by division; an empty BUF gives it no turn. -/
theorem text6DecodesBuf : Obligations.Text6DecodesBuf := by
  unfold Obligations.Text6DecodesBuf
  refine ⟨soleWord_of_no_immediate (i := .text6) (by decide), fun s => exec_text6_of_textLoop rfl,
    fun s hlen => exec_text6_of_textLoop ?_, fun s hbuf => exec_text6_of_textLoop ?_⟩
  · rw [hlen]
    rfl
  · rw [← bufOperand_length, hbuf]
    decide

/-! ## ALTB -/

/-- A 12-bit altitude field with Q = 1 (R155, R156). -/
theorem altF_of_fields {b : List Byte} {high low : Nat} (hh : high < 128) (hl : low < 16)
    (hv : beNat b = high * 32 + 16 + low) : altF b = .ok ((high * 4 + low) * 25 - 1000) := by
  rcases altF_cases b with ⟨a, ha, -, -, -, hval⟩ | ⟨-, -, hq⟩ | ⟨-, hbig⟩
  · rw [ha, hval, show beNat b / 32 = high by omega, show beNat b % 16 = low by omega]
    push_cast
    rfl
  · omega
  · omega

/-- A 12-bit altitude field with Q = 0 is a Gray-code altitude (R157). -/
theorem altF_of_gray_fields {b : List Byte} {high low : Nat} (hh : high < 128) (hl : low < 16)
    (hv : beNat b = high * 32 + low) : altF b = .error .unsupportedEncoding := by
  rcases altF_cases b with ⟨-, -, -, -, hq, -⟩ | ⟨herr, -⟩ | ⟨-, hbig⟩
  · omega
  · exact herr
  · omega

/-- A value of more than 12 bits is no altitude field (R158). -/
theorem altF_of_large {b : List Byte} (h : 4096 ≤ beNat b) : altF b = .error .inputFormat := by
  rcases altF_cases b with ⟨-, -, -, hlt, -⟩ | ⟨-, hlt, -⟩ | ⟨herr, -⟩
  · omega
  · omega
  · exact herr

/-- ALTB of a field with Q = 1. -/
theorem exec_altb_of_fields {s : State} {high low : Nat} (hh : high < 128) (hl : low < 16)
    (hv : beNat (bufOperand s) = high * 32 + 16 + low) :
    exec .altb s = .next (ended s 0x00#8 (.sint ((high * 4 + low) * 25 - 1000))) :=
  finish_bind_ok .sint (altF_of_fields hh hl hv)

/-- Settles O37: what ALT_F answers for Q = 1, for Q = 0 and for more than 12 bits; in the example high is 5 and low is 3. -/
theorem altbScalesTheField : Obligations.AltbScalesTheField := by
  unfold Obligations.AltbScalesTheField
  refine ⟨soleWord_of_no_immediate (i := .altb) (by decide), fun s high low => exec_altb_of_fields,
    fun s high low hh hl hv => finish_bind_error .sint (altF_of_gray_fields hh hl hv),
    fun s h => finish_bind_error .sint (altF_of_large h), fun s hbuf => ?_⟩
  exact exec_altb_of_fields (high := 5) (low := 3) (by decide) (by decide) (by rw [hbuf]; decide)

/-! ## SSTAT -/

/-- The surveillance status of codes 0 to 3 (R160). -/
theorem sstatF_of_le {b : List Byte} (h : beNat b ≤ 3) : sstatF b = .ok (ssName (beNat b)) := by
  rcases sstatF_cases b with ⟨n, hn, -, -, hname⟩ | ⟨-, hbig⟩
  · rw [ssNames_eq_ssName (by omega), Option.some.injEq] at hname
    rw [hn, hname]
  · omega

/-- A code above 3 has no name (R160). -/
theorem sstatF_of_gt {b : List Byte} (h : 3 < beNat b) : sstatF b = .error .decodeError := by
  rcases sstatF_cases b with ⟨-, -, -, hle, -⟩ | ⟨herr, -⟩
  · omega
  · exact herr

/-- Settles O39: what SSTAT_F answers on either side of code 3. -/
theorem sstatNamesTheStatus : Obligations.SstatNamesTheStatus := by
  unfold Obligations.SstatNamesTheStatus
  exact ⟨soleWord_of_no_immediate (i := .sstat) (by decide), fun s h => finish_bind_ok .name (sstatF_of_le h),
    fun s h => finish_bind_error .name (sstatF_of_gt h)⟩

end Sys2Proof.Proofs.ScalarFamily

namespace Sys2Proof.Proofs.LookupFamily

open Sys2Proof Sys2Proof.Machine Sys2Proof.Claims Sys2Proof.Proofs.EncodingFamily Sys2Proof.Proofs.SlicerFamily
open Sys2Proof.Proofs.ScalarFamily

/-! ## What WV_F answers -/

/-- WV_F of a type code outside the identification range has no name (R170). -/
theorem wvF_none {tc cat : Nat} (hc : cat ≤ 7) (ht : tc = 0 ∨ 5 ≤ tc) : wvF tc cat = .ok none := by
  rw [wvF, if_neg (by omega), if_neg (by omega), if_neg (by omega)]

/-- WV_F of type code 1 (R170). -/
theorem wvF_reserved {cat : Nat} (hc : cat ≤ 7) : wvF 1 cat = .ok (some (ascii "reserved")) :=
  wvF_ident 1 cat (by decide) (by decide) hc

/-- WV_F of type codes 2 to 4 is the entry of the open table (R170, R172). -/
theorem wvF_table (k : Fin 3) (c : Fin 8) : wvF (k.val + 2) c.val = .ok (some (Config.wvName k c)) := by
  rw [wvF_ident _ _ (by omega) (by omega) (by omega), ← identName_table, identName]

/-- WV_F of a category above 7 is an error, whatever the type code (R170). -/
theorem wvF_invalid {tc cat : Nat} (hc : 7 < cat) : wvF tc cat = .error .inputFormat := by
  rcases wvF_cases tc cat with ⟨-, -, hle⟩ | ⟨herr, -⟩
  · omega
  · exact herr

/-! ## WVCAT by what WV_F answers -/

/-- WVCAT completes with WV_F's answer (R171). -/
theorem exec_wvcat_of_ok {tc cat : BitVec 8} {s : State} {o : Option Text} (h : wvF tc.toNat cat.toNat = .ok o) :
    exec (.wvcat tc cat) s = .next (ended s 0x00#8 (.optname o)) := finish_bind_ok .optname h

/-- WVCAT raises WV_F's error (R171). -/
theorem exec_wvcat_of_error {tc cat : BitVec 8} {s : State} {e : Err} (h : wvF tc.toNat cat.toNat = .error e) :
    exec (.wvcat tc cat) s = .next (ended s (errCode e) .none) := finish_bind_error .optname h

/-- Settles O40: WVCAT ends as WV_F answers in each of its four cases. -/
theorem wvcatLooksUpTheName : Obligations.WvcatLooksUpTheName := by
  unfold Obligations.WvcatLooksUpTheName
  refine ⟨twoImmediateWord_of_decodeOp fun _ _ => rfl, fun tc cat s hc ht => exec_wvcat_of_ok (wvF_none hc ?_),
    fun cat s hc => exec_wvcat_of_ok (wvF_reserved hc), fun k c s => exec_wvcat_of_ok ?_,
    fun tc cat s hc => exec_wvcat_of_error (wvF_invalid hc)⟩
  · exact ht.imp_left fun h => by rw [h, BitVec.toNat_ofNat, Nat.zero_mod]
  · have htc : (BitVec.ofNat 8 (k.val + 2)).toNat = k.val + 2 := Nat.mod_eq_of_lt (by omega)
    have hcat : (BitVec.ofNat 8 c.val).toNat = c.val := Nat.mod_eq_of_lt (by omega)
    rw [htc, hcat, wvF_table]

end Sys2Proof.Proofs.LookupFamily

namespace Sys2Proof.Proofs.DispatchFamily

open Sys2Proof Sys2Proof.Machine Sys2Proof.Claims Sys2Proof.Proofs.EncodingFamily
open Sys2Proof.Proofs.CrcFamily

/-! ## NOP -/

/-- Settles O14: the word by `soleWord_of_no_immediate`; NOP completes with NONE by its definition. -/
theorem nopCompletes : Obligations.NopCompletes := by
  unfold Obligations.NopCompletes
  exact ⟨soleWord_of_no_immediate (i := .nop) (by decide), fun s => rfl⟩

/-! ## DECME: the length of BUF, the Gray-code altitude and the other ME fields -/

/-- DECME of a BUF that is no ME field raises INPUT_FORMAT before it reads a type code (R190). -/
theorem exec_decme_of_length {s : State} (hl : s.bufLen ≠ 7) : exec .decme s = .next (ended s 0x01#8 .none) := by
  have hval : s.bufLen.val ≠ 7 := fun h => hl (Fin.ext h)
  show execDecme s = _
  rw [execDecme, if_pos hval]
  rfl

/-- The bytes of BUF are as many as its length register says (R21). -/
theorem bufOperand_length_eq_iff (s : State) (n : Fin (Config.bufMax + 1)) :
    (bufOperand s).length = n.val ↔ s.bufLen = n := by
  rw [bufOperand_length, Fin.ext_iff]

/-- The example ME field of R190: TC 11, Q = 1. -/
theorem meF_decme_example : meF [0x58#8, 0xC3#8, 0x82#8, 0xD6#8, 0x90#8, 0xC8#8, 0xAC#8]
    = .ok (.posBaro 11#5 (ascii "no condition") 0#1 8900 0#1 0#1 93000#17 51372#17) := by decide

/-- Settles O41: DECME checks the length, then ends as ME_F answers, which fails for a Gray-code altitude only. -/
theorem decmeCompletesOrFails : Obligations.DecmeCompletesOrFails := by
  unfold Obligations.DecmeCompletesOrFails
  refine ⟨soleWord_of_no_immediate (i := .decme) (by decide), fun s => exec_decme_of_length,
    fun s hl h9 h18 hq => ?_, fun s hl h => ?_, fun s hbuf => ?_⟩
  · exact exec_decme_of_error hl (meF_of_gray (bufOperand_length_seven hl) h9 h18 hq)
  · obtain ⟨m, hm⟩ := meF_of_supported (bufOperand_length_seven hl) h
    exact ⟨m, hm, exec_decme_of_ok hl hm⟩
  · exact exec_decme_of_ok ((bufOperand_length_eq_iff s 7).mp (by rw [hbuf]; rfl)) (by rw [hbuf, meF_decme_example])

/-! ## DECME: the rows of the type code map without sub-fields -/

/-- ME_F follows the row of a type code given as its five bits (R95, R191). -/
theorem meF_of_typeCode {me : List Byte} {tc : BitVec 5} (hl : me.length = 7) (h : bits me 1 5 = tc.toNat) :
    meF me = meByTc tc me := by
  rw [meF_eq_meByTc hl, h, BitVec.ofNat_toNat, BitVec.setWidth_eq]

/-- The row of TC 23 to 27 (R95, R195). -/
theorem meByTc_reserved {tc : BitVec 5} (me : List Byte) (h23 : 23 ≤ tc.toNat) (h27 : tc.toNat ≤ 27) :
    meByTc tc me = .ok (.reserved tc (ascii "reserved")) := by
  rw [meByTc, if_neg (by omega), if_neg (by omega), if_neg (by omega), if_pos ⟨h23, h27⟩]

/-- The row of the type codes that no other row names (R95, R195). -/
theorem meByTc_unknown {tc : BitVec 5} (me : List Byte) (h : tc.toNat ∈ [0, 5, 6, 7, 8, 30]) :
    meByTc tc me = .ok (.unknown tc (BitVec.ofNat 56 (beNat me))) := by
  have hrow : tc.toNat = 0 ∨ (5 ≤ tc.toNat ∧ tc.toNat ≤ 8) ∨ tc.toNat = 30 := by
    simp only [List.mem_cons, List.not_mem_nil, or_false] at h
    omega
  rw [meByTc, if_neg (by omega), if_neg (by omega), if_neg (by omega), if_neg (by omega), if_neg (by omega),
    if_neg (by omega), if_neg (by omega)]

/-- DECME of a 7-byte BUF completes with the variant of its type code's row (R190, R195). -/
theorem exec_decme_of_meByTc {s : State} {tc : BitVec 5} {m : MeVariant} (hl : s.bufLen = 7)
    (htc : bits (bufOperand s) 1 5 = tc.toNat) (hm : meByTc tc (bufOperand s) = .ok m) :
    exec .decme s = .next (ended s 0x00#8 (.me m)) :=
  exec_decme_of_ok hl ((meF_of_typeCode (bufOperand_length_seven hl) htc).trans hm)

/-- Settles O45: each type code by its row of the map; those of 28, 29 and 31 are single codes, so the row evaluates. -/
theorem decmeNamedAndUnknown : Obligations.DecmeNamedAndUnknown := by
  unfold Obligations.DecmeNamedAndUnknown
  rintro s me hl rfl
  refine ⟨fun n htc h23 h27 => ?_, fun htc => ?_, fun htc => ?_, fun htc => ?_, fun n htc h => ?_⟩
  · exact exec_decme_of_meByTc hl htc (meByTc_reserved _ h23 h27)
  · exact exec_decme_of_meByTc (tc := 28#5) hl htc rfl
  · exact exec_decme_of_meByTc (tc := 29#5) hl htc rfl
  · exact exec_decme_of_meByTc (tc := 31#5) hl htc rfl
  · exact exec_decme_of_meByTc hl htc (meByTc_unknown _ h)

/-! ## DECFR: the length of BUF, the Gray-code frames and the other frames -/

/-- ME_F of TC 2 to 4, the category's name the entry of the open table (R97, R172, R192). -/
theorem meF_ident_table {me : List Byte} {k : Fin 3} {c : Fin 8} {cs : Text} (hl : me.length = 7)
    (htc : bits me 1 5 = k.val + 2) (hcat : bits me 6 8 = c.val) (hcs : textLoop 8 (bits me 9 56) [] = cs) :
    meF me = .ok (.ident (BitVec.ofNat 5 (k.val + 2)) (BitVec.ofNat 3 c.val) cs (Config.wvName k c)) := by
  rw [meF_ident hl (by omega) (by omega), htc, hcat, hcs, identName_table]

/-- The ME field of the example frame of R200: TC 4, category 0. -/
theorem meF_decfr_example : meF [0x20#8, 0x2C#8, 0xC3#8, 0x71#8, 0xC3#8, 0x2C#8, 0xE0#8]
    = .ok (.ident 4#5 0#3 (ascii "KLM1023 ") (Config.wvName 2 0)) :=
  meF_ident_table (k := 2) (c := 0) rfl (by decide) (by decide) (by decide)

/-- FRAME_F of the example frame of R200, over the table that reset builds. -/
theorem frameF_decfr_example : frameF tableInit [0x8D#8, 0x48#8, 0x40#8, 0xD6#8, 0x20#8, 0x2C#8, 0xC3#8, 0x71#8, 0xC3#8,
      0x2C#8, 0xE0#8, 0x57#8, 0x60#8, 0x98#8]
    = .ok
      { len := 14, mode := .extended, df := 17#5, ca := 5#3, aa := { val := 0x4840D6#24, str := ascii "4840d6" },
        crcMatch := true, crcHex := ascii "576098",
        payload := .mepay (.ident 4#5 0#3 (ascii "KLM1023 ") (Config.wvName 2 0)) } := by
  refine Eq.trans (frameF_fourteen_mepay _ rfl (by decide) meF_decfr_example) ?_
  have haddr : addrOf 0x4840D6 = { val := 0x4840D6#24, str := ascii "4840d6" } := by decide
  simp only [List.take_succ_cons, List.take_zero, crc24_crcchk_example, recordFor, Except.ok.injEq, FrameRecord.mk.injEq,
    ← haddr, true_and, and_true]
  exact ⟨rfl, by decide, by decide, congrArg addrOf (by decide), by decide, by decide⟩

/-- Settles O49: DECFR ends as FRAME_F answers, which fails for a Gray-code frame and for a length of no frame only. -/
theorem decfrCompletesOrFails : Obligations.DecfrCompletesOrFails := by
  unfold Obligations.DecfrCompletesOrFails
  refine ⟨soleWord_of_no_immediate (i := .decfr) (by decide), fun s h7 h14 => ?_, fun s h => ?_, fun s hl h => ?_,
    fun s htable hbuf => ?_⟩
  · rw [Ne, ← bufOperand_length_eq_iff] at h7 h14
    exact exec_decfr_of_error (frameF_of_length _ h7 h14)
  · exact exec_decfr_of_error (frameF_of_grayFrame _ h)
  · rw [← bufOperand_length_eq_iff, ← bufOperand_length_eq_iff] at hl
    obtain ⟨r, hr⟩ := frameF_of_supported s.crcTable hl h
    exact ⟨r, hr, exec_decfr_of_ok hr⟩
  · exact exec_decfr_of_ok (by rw [htable, hbuf, frameF_decfr_example])

end Sys2Proof.Proofs.DispatchFamily

namespace Sys2Proof.Proofs.ExceptionsFamily

open Sys2Proof Sys2Proof.Machine Sys2Proof.Claims Sys2Proof.Proofs.StateFamily

/-! ## An error is precise -/

/-- The status codes of the errors are 1 to 6 (R64). -/
theorem errCode_mem (e : Err) : errCode e ∈ [0x01#8, 0x02#8, 0x03#8, 0x04#8, 0x05#8, 0x06#8] := by
  cases e <;> simp [errCode]

/-- A command that ends with a STATUS other than 0 has raised an error: a completion, that of SLICEB included, writes 0. -/
theorem eq_raise_of_exec_next {i : Instr} {s t : State} (h : exec i s = .next t) (hne : t.status ≠ 0x00#8) :
    ∃ e, t = s.raise e := by
  rcases exec_next_cases h with ⟨x, rfl⟩ | herr | ⟨a, b, r, -, -, rfl⟩
  · exact absurd rfl hne
  · exact herr
  · exact absurd rfl hne

/-- Settles O52: an end with a STATUS other than 0 is an error raised, and raising one writes its code and NONE alone. -/
theorem errorsChangeNothingElse : Obligations.ErrorsChangeNothingElse := by
  unfold Obligations.ErrorsChangeNothingElse
  intro i s t h hne
  obtain ⟨e, rfl⟩ := eq_raise_of_exec_next h hne
  exact ⟨raise_eq_ended s e, errCode_mem e⟩

/-! ## No error is sticky -/

theorem conclude_ended (s : State) (c : BitVec 8) (r : Result) (x : Except Err Result) :
    (ended s c r).conclude x = s.conclude x := by
  cases x with
  | ok y => exact State.complete_forgets s c r y
  | error e => exact State.raise_forgets s c r e

theorem finish_ended (s : State) (c : BitVec 8) (r : Result) (x : Except Err Result) :
    finish (ended s c r) x = finish s x :=
  congrArg Host.Outcome.next (conclude_ended s c r x)

/-- Every command does the same whatever STATUS and RESULT hold: its operands are other registers, and its end overwrites
both (R223). -/
theorem exec_ended (i : Instr) (s : State) (c : BitVec 8) (r : Result) : exec i (ended s c r) = exec i s := by
  cases i with
  | sliceb a b =>
    show execSliceb a b (ended s c r) = execSliceb a b s
    have hbuf : bufOperand (ended s c r) = bufOperand s := rfl
    rw [execSliceb, execSliceb, hbuf]
    cases sliceF (bufOperand s) (immediate a) (immediate b) with
    | ok bs => exact congrArg Host.Outcome.next (State.complete_forgets (s.loadBuf bs) c r (.bytes bs))
    | error e => exact congrArg Host.Outcome.next (State.raise_forgets s c r e)
  | addri =>
    show execAddri (ended s c r) = execAddri s
    have hwritten : (ended s c r).ivalW = s.ivalW := rfl
    rw [execAddri, execAddri, hwritten]
    split
    · exact finish_ended s c r _
    · rfl
  | _ => exact finish_ended s c r _

/-- Settles O53: a legal word runs its command, which `exec_ended` covers, and an illegal one raises its error, which
forgets STATUS and RESULT. -/
theorem earlierStatusIsForgotten : Obligations.EarlierStatusIsForgotten := by
  unfold Obligations.EarlierStatusIsForgotten
  refine ⟨exec_ended, fun w s c r => ?_⟩
  rw [step_issue, step_issue]
  cases decode w with
  | ok i => exact exec_ended i s c r
  | error _ => exact congrArg Host.Outcome.next (State.raise_forgets s c r .illegalCommand)

end Sys2Proof.Proofs.ExceptionsFamily

namespace Sys2Proof.Proofs.ResetFamily

open Sys2Proof Sys2Proof.Machine Sys2Proof.Claims Sys2Proof.Proofs.StateFamily

/-- With a reset first a step takes it from the port and resets the block (R250, R253). -/
theorem step_reset {s : State} {rest : List PortEvent} (h : s.port = .host .reset :: rest) :
    step s = .next (s.withPort rest).resetBlock :=
  step_host h

/-- The table of a block just reset is that of TABLE_F, whatever it was before (R121, R250). -/
theorem toNat_tableAt_resetBlock (s : State) (i : BitVec 8) :
    (tableAt s.resetBlock.crcTable i).toNat = tableLoop 8 (i.toNat * 2 ^ 16) := by
  rw [State.resetBlock_crcTable, toNat_tableAt_tableInit]

/-- Settles O2: the step resets the block, whose registers the `resetBlock` laws read. -/
theorem resetBetweenCommands : Obligations.ResetBetweenCommands := by
  unfold Obligations.ResetBetweenCommands
  intro s rest hport
  exact ⟨(s.withPort rest).resetBlock, step_reset hport, State.resetBlock_status _, State.resetBlock_result _,
    State.resetBlock_bufLen _, State.resetBlock_strLen _, State.resetBlock_ivalW _, State.resetBlock_tblValid _,
    toNat_tableAt_resetBlock _⟩

end Sys2Proof.Proofs.ResetFamily

namespace Sys2Proof.Proofs.OtherFamily

open Sys2Proof Sys2Proof.Machine Sys2Proof.Safety Sys2Proof.Claims
open Sys2Proof.Proofs.StateFamily Sys2Proof.Proofs.EncodingFamily Sys2Proof.Proofs.SlicerFamily Sys2Proof.Proofs.CrcFamily
open Sys2Proof.Proofs.ScalarFamily Sys2Proof.Proofs.DispatchFamily Sys2Proof.Proofs.ExceptionsFamily

/-! ## The command words and their commands -/

/-- Settles O7: the decoder takes the fields of a built word apart again, and its table maps each OP to its command. -/
theorem decodeOfEncode : Obligations.DecodeOfEncode := decode_encode

/-- Settles O8: the decoder accepts only words built from a command's own fields. -/
theorem encodeOfDecode : Obligations.EncodeOfDecode := fun _ _ h => (eq_encode_of_decode_ok h).symm

/-- The fields of a built word do not overlap, so it is their weighted sum (R60, R67). -/
theorem toNat_wordOf (op a b : BitVec 8) : (wordOf op a b).toNat = b.toNat * 2 ^ 16 + a.toNat * 2 ^ 8 + op.toNat := by
  have hop := op.isLt
  have ha := a.isLt
  have hb := b.isLt
  have hlow : a.toNat <<< 8 ||| op.toNat = a.toNat * 2 ^ 8 + op.toNat := by
    rw [← Nat.shiftLeft_add_eq_or_of_lt hop, Nat.shiftLeft_eq]
  have hall : b.toNat <<< 16 ||| (a.toNat * 2 ^ 8 + op.toNat) = b.toNat * 2 ^ 16 + (a.toNat * 2 ^ 8 + op.toNat) := by
    rw [← Nat.shiftLeft_add_eq_or_of_lt (by omega), Nat.shiftLeft_eq]
  have hA : (a.setWidth 32 <<< 8).toNat = a.toNat <<< 8 := by
    rw [BitVec.toNat_shiftLeft, BitVec.toNat_setWidth, Nat.shiftLeft_eq, Nat.shiftLeft_eq]
    omega
  have hB : (b.setWidth 32 <<< 16).toNat = b.toNat <<< 16 := by
    rw [BitVec.toNat_shiftLeft, BitVec.toNat_setWidth, Nat.shiftLeft_eq, Nat.shiftLeft_eq]
    omega
  rw [wordOf, BitVec.toNat_or, BitVec.toNat_or, hA, hB, BitVec.toNat_setWidth, Nat.mod_eq_of_lt (by omega), Nat.or_assoc,
    hlow, hall, Nat.add_assoc]

/-- Settles O9: a command's word is built from its OP and immediates. -/
theorem encodedWordAsANumber : Obligations.EncodedWordAsANumber := fun i => toNat_wordOf (opcode i) (immA i) (immB i)

/-- Every encoded command passes the three checks (R61, R62, R65). -/
theorem legalWord_encode (i : Instr) : legalWord (encode i) = true := by
  simp only [legalWord, legalC, legalOp, legalImm, encode, cField_wordOf, opField_wordOf, aField_wordOf, bField_wordOf]
  cases i <;> simp [opcode, immA, immB]

/-- The OP values outside the reserved ranges are those of the decoder's table (R63, R65). -/
theorem toNat_opField_mem {w : Word} (h : legalOp w = true) :
    (opField w).toNat ∈
      [0x00, 0x01, 0x02, 0x08, 0x09, 0x0A, 0x10, 0x11, 0x12, 0x13, 0x14, 0x15, 0x16, 0x18, 0x20, 0x30, 0x31] := by
  simp only [legalOp, Bool.not_eq_true', Bool.or_eq_false_iff, Bool.and_eq_false_iff, decide_eq_false_iff_not,
    beq_eq_false_iff_ne] at h
  simp only [List.mem_cons, List.not_mem_nil, or_false]
  omega

/-- The decoder's table answers a command for a legal OP with the immediates its row of R62 allows (R63, R66). -/
theorem exists_decodeOp_ok {w : Word} (hop : legalOp w = true) (himm : legalImm w = true) :
    ∃ i, decodeOp (opField w) (aField w) (bField w) = .ok i := by
  unfold decodeOp
  split
  case h_2 | h_3 | h_14 => exact ⟨_, rfl⟩
  case h_4 hv =>
    have hB : bField w = 0#8 := by simpa [legalImm, hv] using himm
    exact ⟨_, if_pos hB⟩
  case h_18 => exact absurd (toNat_opField_mem hop) (by simp; tauto)
  all_goals
    rename_i hv
    have hAB : aField w = 0#8 ∧ bField w = 0#8 := by simpa [legalImm, hv] using himm
    exact ⟨_, if_pos hAB⟩

/-- Settles O6: the checks leave the decoder an OP and immediates of its table, and every command it answers is encoded in a
word that passes them. -/
theorem decoderAcceptsExactlyTheLegalWords : Obligations.DecoderAcceptsExactlyTheLegalWords := by
  unfold Obligations.DecoderAcceptsExactlyTheLegalWords
  intro w
  constructor
  · intro h
    simp only [legalWord, Bool.and_eq_true] at h
    obtain ⟨⟨hc, hop⟩, himm⟩ := h
    obtain ⟨i, hi⟩ := exists_decodeOp_ok hop himm
    exact ⟨i, by rw [decode, if_neg (not_not.mpr (beq_iff_eq.mp hc)), hi]⟩
  · rintro ⟨i, hi⟩
    rw [eq_encode_of_decode_ok hi]
    exact legalWord_encode i

/-- Settles O10 by evaluating the decoder on each word. -/
theorem wordsOfTheSpecDecode : Obligations.WordsOfTheSpecDecode := by
  unfold Obligations.WordsOfTheSpecDecode
  decide

/-- Settles O11 by evaluating the assembler on each line. -/
theorem sourceLinesAssemble : Obligations.SourceLinesAssemble := by
  unfold Obligations.SourceLinesAssemble
  decide +kernel

/-! ## The host port -/

/-- Settles O3: with no event the step is the idle step. -/
theorem idleBlockKeepsEveryRegister : Obligations.IdleBlockKeepsEveryRegister := fun _ h => step_idle h

/-- With a legal command word first a step takes it from the port and runs its command. -/
theorem step_legal {s : State} {w : Word} {rest : List PortEvent} {i : Instr} (hp : s.port = .command w :: rest)
    (hd : decode w = .ok i) : step s = exec i (s.withPort rest) := by
  rw [step_command hp, hd]

/-- With an illegal command word first a step takes it from the port and raises ILLEGAL_COMMAND (R65). -/
theorem step_illegal {s : State} {w : Word} {rest : List PortEvent} {e : Illegal} (hp : s.port = .command w :: rest)
    (hd : decode w = .error e) : step s = .next (ended (s.withPort rest) 0x06#8 .none) := by
  rw [step_command hp, hd]
  rfl

/-- Settles O4: the word is taken from the port before its command runs. -/
theorem stepRunsTheDecodedCommand : Obligations.StepRunsTheDecodedCommand := fun _ _ _ _ hp hd => step_legal hp hd

/-- A host write that fits BUF loads it (R27). -/
theorem step_writeBuf {s : State} {bs : List Byte} {rest : List PortEvent} (hp : s.port = .host (.writeBuf bs) :: rest)
    (hl : bs.length ≤ 14) : step s = .next ((s.withPort rest).loadBuf bs) :=
  (step_host hp).trans (if_pos hl)

/-- A host write that fits STR loads it (R27). -/
theorem step_writeStr {s : State} {cs : Text} {rest : List PortEvent} (hp : s.port = .host (.writeStr cs) :: rest)
    (hl : cs.length ≤ 32) : step s = .next ((s.withPort rest).loadStr cs) :=
  (step_host hp).trans (if_pos hl)

/-- Settles O12: each event by the step it makes; what a buffer then holds is said by `loadBuf_spec` and `loadStr_spec`. -/
theorem hostActionsBetweenCommands : Obligations.HostActionsBetweenCommands := by
  unfold Obligations.HostActionsBetweenCommands
  refine ⟨fun s bs rest hp hl hw => ?_, fun s cs rest hp hl hw => ?_, fun s v rest hp => step_host hp,
    fun s w rest hp => ⟨fun i => step_legal hp, fun e => step_illegal hp⟩, fun s rest hp => step_host hp⟩
  · obtain ⟨hbuf, hlen, -, habove⟩ := State.loadBuf_spec (s.withPort rest) bs hw hl
    exact ⟨_, step_writeBuf hp hl, hbuf, hlen, habove, rfl⟩
  · obtain ⟨hstr, hlen, -, habove⟩ := State.loadStr_spec (s.withPort rest) cs hw hl
    exact ⟨_, step_writeStr hp hl, hstr, hlen, habove, rfl⟩

/-- Settles O13: a host write is done only where its length is within the capacity. -/
theorem overlongHostWritesAreRefused : Obligations.OverlongHostWritesAreRefused := by
  unfold Obligations.OverlongHostWritesAreRefused
  exact ⟨fun s bs rest hp hl => (step_host hp).trans (if_neg (by simpa using hl)),
    fun s cs rest hp hl => (step_host hp).trans (if_neg (by simpa using hl))⟩

/-! ## The model fault -/

theorem encode_addri : encode .addri = 0x00000012#32 := by decide

/-- Settles O30: `step_fault` finds an accepted word for ADDRI at the port, and ADDRI has one word only. -/
theorem onlyUnwrittenAddriIsAModelFault : Obligations.OnlyUnwrittenAddriIsAModelFault := by
  unfold Obligations.OnlyUnwrittenAddriIsAModelFault
  intro s f
  constructor
  · intro h
    obtain ⟨w, rest, hp, hd, hw⟩ := step_fault h
    exact ⟨⟨rest, by rw [hp, eq_encode_of_decode_ok hd, encode_addri]⟩, hw⟩
  · rintro ⟨⟨rest, hp⟩, hw⟩
    rw [← encode_addri] at hp
    rw [step_legal hp (decode_encode .addri)]
    exact exec_fault_iff.mpr ⟨rfl, hw⟩

/-- Going on with `f` from a next state; a stop stays as it is. -/
def goOn (o : Host.Outcome State Fault Refusal) (f : State → Host.Outcome State Fault Refusal) :
    Host.Outcome State Fault Refusal :=
  match o with
  | .next t => f t
  | .fault r => .fault r
  | .refused r => .refused r

/-- A run is its first step and, from a next state, the run of the other steps. -/
theorem run_succ (k : Nat) (s : State) : core.run (k + 1) s = goOn (step s) (core.run k) := by
  have hstep : core.step = step := rfl
  simp only [Host.Core.run, hstep]
  cases step s with
  | next t => rfl
  | fault r => rfl
  | refused r => rfl

/-- A run of `j + k` steps is a run of `j` steps and, from a next state, one of `k` steps. -/
theorem run_add (j k : Nat) (s : State) : core.run (j + k) s = goOn (core.run j s) (core.run k) := by
  induction j generalizing s with
  | zero =>
    rw [Nat.zero_add]
    rfl
  | succ j ih =>
    rw [Nat.succ_add, run_succ, run_succ]
    cases step s with
    | next t => exact ih t
    | fault r => rfl
    | refused r => rfl

/-- Settles O31: by `run_add` a run that faults goes no further, and a run that leads to an unwritten ADDRI faults in its
next step (O30). -/
theorem noRunPassesAModelFault : Obligations.NoRunPassesAModelFault := by
  unfold Obligations.NoRunPassesAModelFault
  refine ⟨fun s j k f hrun => ?_, fun s t j k rest hrun hp hw => ?_⟩
  · rw [run_add, hrun]
    rfl
  · have hfault : step t = .fault .unwrittenIval := (onlyUnwrittenAddriIsAModelFault t _).mpr ⟨⟨rest, hp⟩, hw⟩
    have hgo : core.run (k + 1) t = .fault Fault.unwrittenIval := by
      rw [run_succ, hfault]
      rfl
    rw [Nat.add_assoc, run_add, hrun]
    exact hgo

/-! ## What a command leaves in RESULT -/

/-- A command that completes leaves in RESULT what it was given. -/
theorem resultOk_of_finish_ok {s t : State} {x : Result} (h : finish s (.ok x) = .next t) (hx : resultOk x = true) :
    resultOk t.result = true := by
  cases h
  exact hx

/-- A command that wraps what its function answers leaves that in RESULT, or NONE where the function fails (R222). -/
theorem resultOk_of_finish_bind {α : Type} {s t : State} {r : Except Err α} {f : α → Result}
    (h : finish s (do let y ← r; return f y) = .next t) (hr : ∀ y, r = .ok y → resultOk (f y) = true) :
    resultOk t.result = true := by
  cases r with
  | ok y => exact resultOk_of_finish_ok h (hr y rfl)
  | error e =>
    cases h
    rfl

/-- A slice of BUF is a BYTES result: 1 to 14 bytes (R29). -/
theorem resultOk_bytes_of_sliceF {s : State} {a b : Nat} {r : List Byte} (h : sliceF (bufOperand s) a b = .ok r) :
    resultOk (.bytes r) = true := by
  simpa [resultOk] using slice_fits h

/-- A table entry is a NAT result (R29, R124). -/
theorem resultOk_nat_of_bitVec (x : BitVec 24) : resultOk (.nat x.toNat) = true :=
  decide_eq_true (x.isLt.trans (by norm_num))

/-- The value of BUF is a NAT result: 14 bytes at most are below 2^112 (R29, R141). -/
theorem resultOk_nat_of_bufOperand (s : State) : resultOk (.nat (beNat (bufOperand s))) = true :=
  decide_eq_true ((beNat_lt_two_pow _).trans_le (Nat.pow_le_pow_right (by decide)
    (Nat.mul_le_mul_left 8 (bufOperand_length_le s))))

/-- A bare CRC with its hex form is a CRC result (R29, R125). -/
theorem resultOk_crc_bare (c : BitVec 24) : resultOk (.crc c none none (hexlower c.toNat)) = true := by
  simp [resultOk]

/-- What CRC_CHECK reports is a CRC result: its flag is the comparison of its two fields (R29, R126, R127). -/
theorem resultOk_crc_of_crcCheck {t : Vector (BitVec 24) 256} {b : List Byte} {r : CrcCheck} (h : crcCheck t b = .ok r) :
    resultOk (.crc r.crc (some r.emb) (some r.matched) r.hex) = true := by
  rcases Nat.lt_or_ge b.length 3 with hlt | hge
  · rw [crcCheck_short t b hlt] at h
    cases h
  · rw [crcCheck_valid t b hge] at h
    cases h
    simp [resultOk]

/-- What NORM_ADDR answers is an ADDR result (R29, R142). -/
theorem resultOk_addr_of_normAddr {v : Int} {a : Addr} (h : normAddr v = .ok a) : resultOk (.addr a) = true := by
  rcases normAddr_cases v with ⟨a', ha, -, -, -, hok⟩ | ⟨herr, -⟩
  · rwa [Except.ok.inj (h.symm.trans ha)]
  · exact nomatch h.symm.trans herr

/-- The text of BUF is a TEXT result: in the alphabet, 18 characters at most (R29, R151). -/
theorem resultOk_text_of_bufOperand (s : State) : resultOk (.text (text6F (bufOperand s))) = true := by
  have hle := bufOperand_length_le s
  simp only [resultOk, text6F_overAlphabet, text6F_length, Bool.true_and, decide_eq_true_eq]
  simp only [Config.bufMax] at hle
  omega

/-- What ALT_F answers is a SINT result (R29, R159). -/
theorem resultOk_sint_of_altF {b : List Byte} {v : Int} (h : altF b = .ok v) : resultOk (.sint v) = true := by
  rcases altF_cases b with ⟨a, ha, hok, -⟩ | ⟨herr, -⟩ | ⟨herr, -⟩
  · rwa [Except.ok.inj (h.symm.trans ha)]
  · exact nomatch h.symm.trans herr
  · exact nomatch h.symm.trans herr

/-- What SSTAT_F answers is a NAME result (R29, R160). -/
theorem resultOk_name_of_sstatF {b : List Byte} {n : Text} (h : sstatF b = .ok n) : resultOk (.name n) = true := by
  rcases sstatF_cases b with ⟨n', hn, hok, -⟩ | ⟨herr, -⟩
  · rwa [Except.ok.inj (h.symm.trans hn)]
  · exact nomatch h.symm.trans herr

/-- What ME_F answers on a 7-byte field is an ME result (R29, R31). -/
theorem resultOk_me_of_meF {me : List Byte} {m : MeVariant} (hl : me.length = 7) (h : meF me = .ok m) :
    resultOk (.me m) = true := by
  rcases meF_cases me hl with ⟨m', hm, hok, -⟩ | ⟨herr, -⟩
  · rwa [Except.ok.inj (h.symm.trans hm)]
  · exact nomatch h.symm.trans herr

/-- What FRAME_F answers is a FRAME result (R29, R32). -/
theorem resultOk_frame_of_frameF {t : Vector (BitVec 24) 256} {b : List Byte} {r : FrameRecord} (h : frameF t b = .ok r) :
    resultOk (.frame r) = true := by
  rcases frameF_cases t b with ⟨r', hr, hok, -⟩ | ⟨herr, -⟩ | ⟨herr, -⟩
  · rwa [Except.ok.inj (h.symm.trans hr)]
  · exact nomatch h.symm.trans herr
  · exact nomatch h.symm.trans herr

/-- SLICEB ends with the STATUS and RESULT of SLICE (R105). -/
theorem exec_slice_of_exec_sliceb (a b : BitVec 8) (s : State) :
    ∃ t, exec (.sliceb a b) s = .next t ∧ exec (.slice a b) s = .next (ended s t.status t.result) := by
  cases hr : sliceF (bufOperand s) a.toNat b.toNat with
  | ok r =>
    refine ⟨(s.loadBuf r).complete (.bytes r), ?_, exec_slice_of_ok hr⟩
    show execSliceb a b s = _
    rw [execSliceb, immediate, immediate, hr]
  | error e => exact ⟨_, exec_sliceb_of_error hr, exec_slice_of_error hr⟩

/-- ADDRS of a well-formed string goes on as NORM_ADDR of its value (R146). -/
theorem exec_addrs_of_parsed {s : State} {v : Nat} (hp : parseAddrStr (strOperand s) = .ok v) :
    exec .addrs s = finish s (do let r ← normAddr v; return .addr r) := by
  show execAddrs s = _
  rw [execAddrs, hp]
  rfl

/-- DECME of a 7-byte BUF goes on as ME_F (R190). -/
theorem exec_decme_of_seven {s : State} (hl : s.bufLen = 7) :
    exec .decme s = finish s (do let m ← meF (bufOperand s); return .me m) := by
  show execDecme s = _
  rw [execDecme, if_neg (by simp [hl])]

theorem resultOk_of_exec_slice {a b : BitVec 8} {s t : State} (h : exec (.slice a b) s = .next t) :
    resultOk t.result = true :=
  resultOk_of_finish_bind h fun _ => resultOk_bytes_of_sliceF

/-- Every command leaves a RESULT of one of the kinds of R29, within its ranges. -/
theorem resultOk_of_exec {i : Instr} {s t : State} (h : exec i s = .next t) : resultOk t.result = true := by
  cases i with
  | nop => exact resultOk_of_finish_ok h rfl
  | slice a b => exact resultOk_of_exec_slice h
  | sliceb a b =>
    obtain ⟨t', ht', hslice⟩ := exec_slice_of_exec_sliceb a b s
    cases h.symm.trans ht'
    have hok := resultOk_of_exec_slice hslice
    exact hok
  | crctab k => exact resultOk_of_finish_ok h (resultOk_nat_of_bitVec _)
  | crcgen => exact resultOk_of_finish_ok h (resultOk_crc_bare _)
  | crcchk => exact resultOk_of_finish_bind h fun _ => resultOk_crc_of_crcCheck
  | uint => exact resultOk_of_finish_ok h (resultOk_nat_of_bufOperand s)
  | addrb => exact resultOk_of_finish_bind h fun _ => resultOk_addr_of_normAddr
  | addri =>
    cases hw : s.ivalW with
    | true =>
      rw [exec_addri_of_written hw] at h
      exact resultOk_of_finish_bind h fun _ => resultOk_addr_of_normAddr
    | false => exact nomatch h.symm.trans ((exec_fault_iff (f := .unwrittenIval)).mpr ⟨rfl, hw⟩)
  | addrs =>
    cases hp : parseAddrStr (strOperand s) with
    | ok v =>
      rw [exec_addrs_of_parsed hp] at h
      exact resultOk_of_finish_bind h fun _ => resultOk_addr_of_normAddr
    | error e =>
      cases h.symm.trans (exec_addrs_of_error hp)
      rfl
  | text6 => exact resultOk_of_finish_ok h (resultOk_text_of_bufOperand s)
  | altb => exact resultOk_of_finish_bind h fun _ => resultOk_sint_of_altF
  | sstat => exact resultOk_of_finish_bind h fun _ => resultOk_name_of_sstatF
  | wvcat tc cat => exact resultOk_of_finish_bind h fun _ _ => rfl
  | decme =>
    by_cases hl : s.bufLen = 7
    · rw [exec_decme_of_seven hl] at h
      exact resultOk_of_finish_bind h fun _ => resultOk_me_of_meF (bufOperand_length_seven hl)
    · cases h.symm.trans (exec_decme_of_length hl)
      rfl
  | decfr => exact resultOk_of_finish_bind h fun _ => resultOk_frame_of_frameF
  | decfrs =>
    cases hp : parseFrameStr (strOperand s) with
    | ok b =>
      rw [exec_decfrs_of_parsed hp] at h
      exact resultOk_of_finish_bind h fun _ => resultOk_frame_of_frameF
    | error e =>
      cases h.symm.trans (exec_decfrs_of_error hp)
      rfl

/-! ## The invariant of the block -/

theorem errCode_le (e : Err) : (errCode e).toNat ≤ 6 := by
  cases e <;> decide

/-- Every command ends with a STATUS of R64, and with RESULT NONE where that is an error (R222, R237). -/
theorem status_of_exec {i : Instr} {s t : State} (h : exec i s = .next t) :
    t.status.toNat ≤ 6 ∧ (t.status ≠ 0x00#8 → t.result = .none) := by
  by_cases hst : t.status = 0x00#8
  · exact ⟨by simp [hst], fun hne => absurd hst hne⟩
  · obtain ⟨e, rfl⟩ := eq_raise_of_exec_next h hst
    exact ⟨errCode_le e, fun _ => rfl⟩

/-- The invariant's check of STATUS is a code of R64, with RESULT NONE where it is an error. -/
theorem statusOk_iff (c : BitVec 8) (r : Result) : statusOk c r = true ↔ c.toNat ≤ 6 ∧ (c ≠ 0x00#8 → r = .none) := by
  simp only [statusOk, okCode, Bool.and_eq_true, decide_eq_true_eq, Bool.or_eq_true, beq_iff_eq, or_iff_not_imp_left]

/-- New STATUS and RESULT that go together keep the invariant. -/
theorem goodState_ended {s : State} {c : BitVec 8} {r : Result} (hs : GoodState s) (hc : statusOk c r = true)
    (hr : resultOk r = true) : GoodState (ended s c r) := by
  obtain ⟨hbuf, hstr, htable, hvalid, -, -⟩ := hs
  exact ⟨hbuf, hstr, htable, hvalid, hc, hr⟩

theorem goodState_loadBuf {s : State} {bs : List Byte} (hs : GoodState s) (hl : bs.length ≤ Config.bufMax) :
    GoodState (s.loadBuf bs) := by
  obtain ⟨hbuf, hrest⟩ := hs
  obtain ⟨-, -, hloaded, -⟩ := State.loadBuf_spec s bs hbuf hl
  exact ⟨hloaded, hrest⟩

theorem goodState_loadStr {s : State} {cs : Text} (hs : GoodState s) (hl : cs.length ≤ Config.strMax) :
    GoodState (s.loadStr cs) := by
  obtain ⟨hbuf, hstr, hrest⟩ := hs
  obtain ⟨-, -, hloaded, -⟩ := State.loadStr_spec s cs hstr hl
  exact ⟨hbuf, hloaded, hrest⟩

/-- Settles O58: every conjunct of the invariant evaluates on the reset state. -/
theorem resetIsGood : Obligations.ResetIsGood := ⟨rfl, rfl, rfl, rfl, rfl, rfl⟩

/-- Every command keeps the invariant: it writes STATUS and RESULT, and SLICEB loads a slice that fits BUF (R34, R105). -/
theorem goodState_of_exec {i : Instr} {s t : State} (hs : GoodState s) (h : exec i s = .next t) : GoodState t := by
  have hstatus := (statusOk_iff _ _).mpr (status_of_exec h)
  have hresult := resultOk_of_exec h
  rcases exec_next_cases h with ⟨x, rfl⟩ | ⟨e, rfl⟩ | ⟨a, b, r, -, hr, rfl⟩
  · exact goodState_ended hs hstatus hresult
  · exact goodState_ended hs hstatus hresult
  · exact goodState_ended (goodState_loadBuf hs (slice_fits hr).2) hstatus hresult

/-- Every host action that is done keeps the invariant (R27, R250). -/
theorem goodState_of_runAction {a : HostAction} {s t : State} (hs : GoodState s) (h : runAction a s = .next t) :
    GoodState t := by
  cases a with
  | writeBuf bs =>
    simp only [runAction] at h
    split at h
    case isTrue hl =>
      cases h
      exact goodState_loadBuf hs hl
    case isFalse => cases h
  | writeStr cs =>
    simp only [runAction] at h
    split at h
    case isTrue hl =>
      cases h
      exact goodState_loadStr hs hl
    case isFalse => cases h
  | writeIval v =>
    cases h
    exact hs
  | readResult =>
    cases h
    exact hs
  | reset =>
    cases h
    exact resetIsGood

/-- Settles O57, by the event at the port: none, a command word, legal or not, or a host action. -/
theorem stepKeepsGoodState : Obligations.StepKeepsGoodState := by
  unfold Obligations.StepKeepsGoodState
  intro s t hs h
  cases hp : s.port with
  | nil =>
    cases (step_idle hp).symm.trans h
    exact hs
  | cons ev rest =>
    have hrest : GoodState (s.withPort rest) := hs
    cases ev with
    | command w =>
      rw [step_command hp] at h
      cases hd : decode w with
      | ok i =>
        rw [hd] at h
        exact goodState_of_exec hrest h
      | error e =>
        rw [hd] at h
        cases h
        exact goodState_ended hrest rfl rfl
    | host a => exact goodState_of_runAction hrest ((step_host hp).symm.trans h)

/-! ## Every step ends -/

/-- A command ends in a next state but for an ADDRI with IVAL unwritten (R237). -/
theorem exists_exec_next {i : Instr} {s : State} (h : i = .addri → s.ivalW = true) : ∃ t, exec i s = .next t := by
  have hend := exec_end i s
  cases ho : exec i s with
  | next t => exact ⟨t, rfl⟩
  | fault f =>
    obtain ⟨hi, hw⟩ := exec_fault_iff.mp ho
    exact nomatch (h hi).symm.trans hw
  | refused r =>
    rw [ho] at hend
    cases hend

/-- A host action that fits its buffer is done (R27). -/
theorem exists_runAction_next {a : HostAction} {s : State} (h : eventFits (.host a) = true) :
    ∃ t, runAction a s = .next t := by
  cases a with
  | writeBuf bs => exact ⟨_, if_pos (of_decide_eq_true h)⟩
  | writeStr cs => exact ⟨_, if_pos (of_decide_eq_true h)⟩
  | writeIval v => exact ⟨_, rfl⟩
  | readResult => exact ⟨_, rfl⟩
  | reset => exact ⟨_, rfl⟩

/-- Settles O56: a command ends but for an unwritten ADDRI, an illegal word raises its error, and a host write that fits
its buffer is done. -/
theorem everyStepEnds : Obligations.EveryStepEnds := by
  unfold Obligations.EveryStepEnds
  refine ⟨fun i s h => ?_, fun i s f => exec_fault_iff.mp, fun s h => ?_⟩
  · obtain ⟨t, ht⟩ := exists_exec_next h
    exact ⟨t, ht, status_of_exec ht⟩
  · cases hp : s.port with
    | nil => exact ⟨s, step_idle hp⟩
    | cons ev rest =>
      obtain ⟨hfits, hready⟩ := h ev rest hp
      cases ev with
      | host a =>
        rw [step_host hp]
        exact exists_runAction_next hfits
      | command w =>
        rw [step_command hp]
        cases hd : decode w with
        | error e => exact ⟨_, rfl⟩
        | ok i =>
          refine exists_exec_next fun hi => ?_
          simpa [eventReady, hd, hi] using hready

/-! ## Commands as functions of their operands -/

/-- Two outcomes a host cannot tell apart: next states with one STATUS and RESULT, or the same stop. -/
def EndAlike (o o' : Host.Outcome State Fault Refusal) : Prop :=
  (∀ s', o = .next s' → ∃ t', o' = .next t' ∧ t'.status = s'.status ∧ t'.result = s'.result)
    ∧ ∀ f, o = .fault f → o' = .fault f

/-- A command ends alike on two states on which its function answers the same. -/
theorem endAlike_finish {s t : State} {r r' : Except Err Result} (h : r = r') : EndAlike (finish s r) (finish t r') := by
  subst h
  refine ⟨fun s' hs => ⟨t.conclude r, rfl, ?_⟩, fun f hf => nomatch hf⟩
  cases hs
  cases r with
  | ok x => exact ⟨rfl, rfl⟩
  | error e => exact ⟨rfl, rfl⟩

/-- SLICEB ends alike where SLICE does, as it ends with SLICE's STATUS and RESULT. -/
theorem endAlike_sliceb {a b : BitVec 8} {s t : State} (h : EndAlike (exec (.slice a b) s) (exec (.slice a b) t)) :
    EndAlike (exec (.sliceb a b) s) (exec (.sliceb a b) t) := by
  obtain ⟨s', hs, hslice⟩ := exec_slice_of_exec_sliceb a b s
  obtain ⟨t', ht, htslice⟩ := exec_slice_of_exec_sliceb a b t
  obtain ⟨u, hu, hstatus, hresult⟩ := h.1 _ hslice
  cases hu.symm.trans htslice
  rw [hs, ht]
  refine ⟨fun v hv => ⟨t', rfl, ?_⟩, fun f hf => nomatch hf⟩
  cases hv
  exact ⟨hstatus, hresult⟩

/-- ADDRI ends alike on two states with one IVAL and IVAL_W, in the model fault too (R144). -/
theorem endAlike_addri {s t : State} (hi : s.ival = t.ival) (hw : s.ivalW = t.ivalW) :
    EndAlike (exec .addri s) (exec .addri t) := by
  cases hv : t.ivalW with
  | true =>
    rw [exec_addri_of_written hv, exec_addri_of_written (hw.trans hv), hi]
    exact endAlike_finish rfl
  | false =>
    have hfault : ∀ {u : State}, u.ivalW = false → exec .addri u = .fault .unwrittenIval :=
      fun hu => exec_fault_iff.mpr ⟨rfl, hu⟩
    rw [hfault hv, hfault (hw.trans hv)]
    exact ⟨fun u hu => (nomatch hu), fun f hf => hf⟩

/-- Settles O54: what each command's function takes is the same on both states, so it ends alike. -/
theorem onlyOperandsMatter : Obligations.OnlyOperandsMatter := by
  unfold Obligations.OnlyOperandsMatter
  intro i s t hsame
  show EndAlike (exec i s) (exec i t)
  obtain ⟨hbuf, hstr, hival, hivalW, htable⟩ := hsame
  have hlen : s.bufLen = t.bufLen := Fin.ext (by rw [← bufOperand_length, ← bufOperand_length, hbuf])
  cases i with
  | nop => exact endAlike_finish rfl
  | slice a b => exact endAlike_finish (by rw [hbuf])
  | sliceb a b => exact endAlike_sliceb (endAlike_finish (by rw [hbuf]))
  | crctab k => exact endAlike_finish (by rw [htable])
  | crcgen => exact endAlike_finish (by rw [hbuf, htable])
  | crcchk => exact endAlike_finish (by rw [hbuf, htable])
  | uint => exact endAlike_finish (by rw [hbuf])
  | addrb => exact endAlike_finish (by rw [hbuf])
  | addri => exact endAlike_addri hival hivalW
  | addrs => exact endAlike_finish (by rw [hstr])
  | text6 => exact endAlike_finish (by rw [hbuf])
  | altb => exact endAlike_finish (by rw [hbuf])
  | sstat => exact endAlike_finish (by rw [hbuf])
  | wvcat tc cat => exact endAlike_finish rfl
  | decme => exact endAlike_finish (by rw [hbuf, hlen])
  | decfr => exact endAlike_finish (by rw [hbuf, htable])
  | decfrs => exact endAlike_finish (by rw [hstr, htable])

/-- Settles O55: a command that is no SLICEB leaves all but STATUS and RESULT, and DECFR reads neither (O51, O53). -/
theorem frameDecodingIsPure : Obligations.FrameDecodingIsPure := by
  unfold Obligations.FrameDecodingIsPure
  intro i s t hi h
  rw [commandsWriteOnlyStatusAndResult.1 i s t hi h, exec_ended]

/-! ## Ranges that tile a buffer -/

/-- Ranges that tile the bits from `s` to `l` start no later than one bit past the last. -/
theorem le_of_tiles {l s : Nat} {ranges : List (Nat × Nat)} (h : Tiles l s ranges) : s ≤ l + 1 := by
  induction ranges generalizing s with
  | nil => exact le_of_eq h
  | cons p rest ih =>
    obtain ⟨-, hse, hrest⟩ := h
    have := ih hrest
    omega

/-- The bits from `s` on are those of a range `s..e` above those from `e + 1` on. -/
theorem mod_split_range {v l s e : Nat} (hse : s ≤ e) (hel : e ≤ l) :
    v / 2 ^ (l - e) % 2 ^ (e - s + 1) * 2 ^ (l - e) + v % 2 ^ (l - e) = v % 2 ^ (l + 1 - s) := by
  rw [show l + 1 - s = l - e + (e - s + 1) by omega, pow_add 2 (l - e) (e - s + 1), Nat.mod_mul, Nat.mul_comm, Nat.add_comm]

/-- The joined slices of ranges that tile the bits from `s` on are those bits, below what was joined before. -/
theorem joinBits_of_tiles {b : List Byte} {s : Nat} {ranges : List (Nat × Nat)} (hs : 1 ≤ s)
    (h : Tiles (8 * b.length) s ranges) : ∃ rs, sliceSeq b ranges = .ok rs
      ∧ ∀ acc, joinBits ranges rs acc = acc * 2 ^ (8 * b.length + 1 - s) + beNat b % 2 ^ (8 * b.length + 1 - s) := by
  induction ranges generalizing s with
  | nil =>
    refine ⟨[], rfl, fun acc => ?_⟩
    have hs' : s = 8 * b.length + 1 := h
    rw [hs', Nat.sub_self, pow_zero, Nat.mod_one, Nat.mul_one, Nat.add_zero]
    rfl
  | cons p rest ih =>
    obtain ⟨a, e⟩ := p
    obtain ⟨rfl, hse, hrest⟩ := h
    have hel : e ≤ 8 * b.length := Nat.le_of_succ_le_succ (le_of_tiles hrest)
    obtain ⟨r, hr, -⟩ := exists_sliceF_ok hs hse hel
    obtain ⟨rs, hrs, hjoin⟩ := ih (Nat.le_add_left 1 e) hrest
    refine ⟨r :: rs, sliceSeq_cons_ok_iff.mpr ⟨r, rs, hr, hrs, rfl⟩, fun acc => ?_⟩
    rw [joinBits, hjoin, beNat_of_sliceF hr, bits, Nat.add_sub_add_right, ← mod_split_range hse hel,
      show 8 * b.length + 1 - a = 8 * b.length - e + (e - a + 1) by omega, pow_add]
    ring

/-- Settles O19: the tiles of bits 1 to the last join to the buffer's value, which determines its bytes. -/
theorem tilingRangesReproduceTheBuffer : Obligations.TilingRangesReproduceTheBuffer := by
  unfold Obligations.TilingRangesReproduceTheBuffer
  intro b ranges h
  obtain ⟨rs, hrs, hjoin⟩ := joinBits_of_tiles (le_refl 1) h
  refine ⟨rs, hrs, ?_⟩
  rw [hjoin, Nat.zero_mul, Nat.zero_add, Nat.add_sub_cancel, Nat.mod_eq_of_lt (beNat_lt_two_pow b), beBytes_beNat]

/-! ## Laws of the CRC -/

/-- Settles O21: the entries are values of TABLE_F. -/
theorem tableListingSpotChecks : Obligations.TableListingSpotChecks := by
  unfold Obligations.TableListingSpotChecks
  rw [List.map_congr_left fun i _ => tableAt_tableInit i]
  decide

/-- One of the eight steps of TABLE_F as a shift and a conditional addition of the polynomial (R121). -/
theorem crcShift_eq (x : BitVec 24) : crcShift x = x <<< 1 ^^^ bif x.getLsbD 23 then Config.poly else 0#24 := by
  rw [crcShift]
  cases x.getLsbD 23 with
  | true => rfl
  | false => exact (BitVec.xor_zero).symm

theorem cond_xor (p q : Bool) (m : BitVec 24) :
    (bif p ^^ q then m else 0#24) = (bif p then m else 0#24) ^^^ bif q then m else 0#24 := by
  cases p <;> cases q <;> simp

/-- A step of TABLE_F is linear: the shift is, and the polynomials of two set top bits cancel (R121, R131). -/
theorem crcShift_xor (x y : BitVec 24) : crcShift (x ^^^ y) = crcShift x ^^^ crcShift y := by
  simp only [crcShift_eq, BitVec.getLsbD_xor, BitVec.shiftLeft_xor_distrib, cond_xor]
  ac_rfl

theorem iterate_crcShift_xor (n : Nat) (x y : BitVec 24) : crcShift^[n] (x ^^^ y) = crcShift^[n] x ^^^ crcShift^[n] y := by
  induction n generalizing x y with
  | zero => rfl
  | succ n ih => simp only [Function.iterate_succ_apply, crcShift_xor, ih]

theorem tableF_xor (a b : BitVec 8) : tableF (a ^^^ b) = tableF a ^^^ tableF b := by
  rw [tableF, BitVec.setWidth_xor, BitVec.shiftLeft_xor_distrib, iterate_crcShift_xor, tableF, tableF]

theorem tableAt_tableInit_xor (a b : BitVec 8) :
    tableAt tableInit (a ^^^ b) = tableAt tableInit a ^^^ tableAt tableInit b := by
  simp only [tableAt_tableInit, tableF_xor]

/-- A step of the running CRC is linear in the running value and the data byte together (R123, R131). -/
theorem crcByte_xor (c c' : BitVec 24) (x x' : Byte) :
    crcByte tableInit (c ^^^ c') (x ^^^ x') = crcByte tableInit c x ^^^ crcByte tableInit c' x' := by
  have hindex : ((c ^^^ c') >>> 16).setWidth 8 ^^^ (x ^^^ x')
      = ((c >>> 16).setWidth 8 ^^^ x) ^^^ ((c' >>> 16).setWidth 8 ^^^ x') := by
    rw [BitVec.ushiftRight_xor_distrib, BitVec.setWidth_xor]
    ac_rfl
  rw [crcByte, hindex, tableAt_tableInit_xor, BitVec.shiftLeft_xor_distrib, crcByte, crcByte]
  ac_rfl

theorem foldl_crcByte_xor {d d' : List Byte} (hl : d.length = d'.length) (c c' : BitVec 24) :
    (List.zipWith (· ^^^ ·) d d').foldl (crcByte tableInit) (c ^^^ c')
      = d.foldl (crcByte tableInit) c ^^^ d'.foldl (crcByte tableInit) c' := by
  induction d generalizing d' c c' with
  | nil =>
    cases d' with
    | nil => rfl
    | cons x' xs' => cases hl
  | cons x xs ih =>
    cases d' with
    | nil => cases hl
    | cons x' xs' =>
      rw [List.zipWith_cons_cons, List.foldl_cons, crcByte_xor, ih (Nat.succ.inj hl), List.foldl_cons, List.foldl_cons]

/-- Settles O22: each step is linear, both runs start at 0, and a table with entry 0 at 0 passes leading zeros over. -/
theorem crcIsLinear : Obligations.CrcIsLinear := by
  unfold Obligations.CrcIsLinear
  refine ⟨tableAt_tableInit_xor, fun d d' hl => ?_, crc24_replicate_zero_append tableAt_tableInit_zero⟩
  exact foldl_crcByte_xor hl 0#24 0#24

/-- What CRCCHK answered when it reports a match: BUF is its data followed by the three bytes of the data's CRC. -/
theorem bufOperand_of_crcchk_match {s t : State} {c e : BitVec 24} {h : Text} (hend : exec .crcchk s = .next t)
    (hres : t.result = .crc c (some e) (some true) h) :
    ∃ d, bufOperand s = d ++ beBytes 3 (crc24 s.crcTable d).toNat := by
  rcases Nat.lt_or_ge s.bufLen.val 3 with hlt | hge
  · cases hend.symm.trans (exec_crcchk_of_short hlt)
    cases hres
  · have hlen := bufOperand_drop_length hge
    have hemb := beNat_eq_toNat_ofNat hlen
    cases hend.symm.trans (exec_crcchk_of_fields hge rfl hemb)
    simp only [ended, Result.crc.injEq, Option.some.injEq, decide_eq_true_eq] at hres
    obtain ⟨-, -, hmatch, -⟩ := hres
    have htail := beBytes_beNat ((bufOperand s).drop (s.bufLen.val - 3))
    rw [hlen] at htail
    refine ⟨(bufOperand s).take (s.bufLen.val - 3), ?_⟩
    rw [hmatch, ← hemb, htail, List.take_append_drop]

/-- Settles O23: a match says that BUF is data followed by its own CRC. -/
theorem appendedCrcGivesZero : Obligations.AppendedCrcGivesZero := by
  unfold Obligations.AppendedCrcGivesZero
  refine ⟨crc24_append_own_crc tableAt_tableInit_zero, fun s t c e h htable hend hres => exec_crcgen_of_crc24_zero ?_⟩
  obtain ⟨d, hd⟩ := bufOperand_of_crcchk_match hend hres
  rw [hd, htable, crc24_append_own_crc tableAt_tableInit_zero]

/-! ## Hexadecimal forms and addresses -/

theorem hexDigits_hexpad_of_lt {k v : Nat} (h : v < 16 ^ k) : ∃ ds, hexDigits (hexpad k v) = some ds ∧ digitsNat ds = v := by
  obtain ⟨ds, hds, hv⟩ := hexDigits_hexpad k v
  exact ⟨ds, hds, hv.trans (Nat.mod_eq_of_lt h)⟩

/-- `hexlower` has enough digits for its value (R13). -/
theorem lt_sixteen_pow_log2 (v : Nat) : v < 16 ^ (v.log2 / 4 + 1) := by
  calc v < 2 ^ (v.log2 + 1) := Nat.lt_log2_self
    _ ≤ 2 ^ (4 * (v.log2 / 4 + 1)) := Nat.pow_le_pow_right (by decide) (by omega)
    _ = 16 ^ (v.log2 / 4 + 1) := pow_mul 2 4 _

/-- `hexlower` has no more digits than its value needs: the first is not 0 but for the value 0 (R83). -/
theorem leading_digit_ne_zero {v : Nat} (h : v ≠ 0) : v / 16 ^ (v.log2 / 4) % 16 ≠ 0 := by
  have hge : 16 ^ (v.log2 / 4) ≤ v := by
    calc 16 ^ (v.log2 / 4) = 2 ^ (4 * (v.log2 / 4)) := (pow_mul 2 4 _).symm
      _ ≤ 2 ^ v.log2 := Nat.pow_le_pow_right (by decide) (by omega)
      _ ≤ v := Nat.log2_self_le h
  have hpos : 0 < v / 16 ^ (v.log2 / 4) := Nat.div_pos hge (by positivity)
  have hlt : v / 16 ^ (v.log2 / 4) < 16 := Nat.div_lt_of_lt_mul (by rw [← pow_succ]; exact lt_sixteen_pow_log2 v)
  omega

/-- The character 0 is the digit of 0 only. -/
theorem hexChar_ne_zero {d : Nat} (hd : d < 16) (h : d ≠ 0) : hexChar d ≠ 0x30#8 := by
  intro hc
  have hval := hexVal_hexChar d hd
  rw [hc] at hval
  exact h (Option.some.inj hval).symm

/-- Settles O26: both forms are padded digits; `hexlower` takes as many as its value needs, so the first is not 0. -/
theorem hexFormsReadBack : Obligations.HexFormsReadBack := by
  unfold Obligations.HexFormsReadBack
  refine ⟨fun k v h => ⟨hexpad_length k v, lowerHex_hexpad k v, hexDigits_hexpad_of_lt h⟩, fun v =>
    ⟨lowerHex_hexpad _ v, hexDigits_hexpad_of_lt (lt_sixteen_pow_log2 v), fun h => by rw [h, hexlower_zero], fun h => ?_⟩⟩
  exact ⟨_, rfl, hexChar_ne_zero (Nat.mod_lt _ (by decide)) (leading_digit_ne_zero h)⟩

/-- PARSE_ADDR_STR of the six digits of a 24-bit value is that value (R145). -/
theorem parseAddrStr_hexpad_six {v : Nat} (h : v ≤ 0xFFFFFF) : parseAddrStr (hexpad 6 v) = .ok v := by
  obtain ⟨ds, hds, hv⟩ := hexDigits_hexpad_of_lt (k := 6) (v := v) (by omega)
  have hne : ds ≠ [] := by
    rintro rfl
    have := hexDigits_length _ _ hds
    rw [hexpad_length] at this
    cases this
  rw [parseAddrStr_of_hexDigits (by rw [dropHexMark_of_hexDigits hds, hds]) hne, hv]

/-- Settles O33: each form gives the value `v` to NORM_ADDR. -/
theorem addressFormsAgree : Obligations.AddressFormsAgree := by
  unfold Obligations.AddressFormsAgree
  intro v sb si ss hv hb hw hi hs
  have hbuf : beNat (bufOperand sb) = v := by rw [hb, beNat_beBytes_of_lt _ _ (by omega)]
  refine ⟨?_, exec_addri_of_le hw hi hv, exec_addrs_of_le (by rw [hs, parseAddrStr_hexpad_six hv]) hv⟩
  rw [exec_addrb_of_le (hbuf ▸ hv), hbuf]

/-! ## The order of packed text -/

theorem textLoop_append (n v : Nat) (acc : Text) : textLoop n v acc = textLoop n v [] ++ acc := by
  simpa only [text6Loop_eq_textLoop] using text6Loop_append n v acc

/-- Character `j` of `n` characters is the one of the group of 6 bits with `n - 1 - j` groups below it (R150). -/
theorem textLoop_getElem? (n v : Nat) {j : Nat} (hj : j < n) :
    (textLoop n v [])[j]? = some (alphabet.getD (v / 64 ^ (n - 1 - j) % 64) 0x00#8) := by
  induction n generalizing v with
  | zero => cases hj
  | succ n ih =>
    rw [textLoop, textLoop_append]
    rcases Nat.lt_or_ge j n with hlt | hge
    · rw [List.getElem?_append_left (by rwa [textLoop_length]), ih _ hlt, Nat.div_div_eq_div_mul, ← pow_succ',
        show n - 1 - j + 1 = n + 1 - 1 - j by omega]
    · obtain rfl : j = n := by omega
      rw [List.getElem?_append_right (by rw [textLoop_length]), textLoop_length, Nat.sub_self, Nat.add_sub_cancel, Nat.sub_self,
        pow_zero, Nat.div_one]
      rfl

/-- Settles O35: the bits of character `j` are the group of 6 bits that the loop reads for it, counted from the end. -/
theorem text6OrderLaw : Obligations.Text6OrderLaw := by
  unfold Obligations.Text6OrderLaw
  intro s
  refine ⟨_, exec_text6_of_textLoop rfl, textLoop_length _ _, fun j hj => ?_⟩
  rw [textLoop_length] at hj
  have hgroup : bits (bufOperand s) (8 * s.bufLen.val % 6 + 6 * j + 1) (8 * s.bufLen.val % 6 + 6 * j + 6)
      = beNat (bufOperand s) / 64 ^ (8 * s.bufLen.val / 6 - 1 - j) % 64 := by
    rw [bits, bufOperand_length, show (64 : Nat) = 2 ^ 6 by rfl, ← pow_mul]
    congr 3 <;> omega
  have hlt : beNat (bufOperand s) / 64 ^ (8 * s.bufLen.val / 6 - 1 - j) % 64 < alphabet.length :=
    Nat.mod_lt _ (by decide)
  rw [textLoop_getElem? _ _ hj, hgroup, List.getD_eq_getElem _ _ hlt, List.getElem?_eq_getElem hlt]

/-! ## Altitudes -/

/-- Settles O38: a SINT result is an altitude by `resultOk_of_exec`; the ends are high and low all 0 and all 1. -/
theorem altitudesStayInRange : Obligations.AltitudesStayInRange := by
  unfold Obligations.AltitudesStayInRange
  refine ⟨fun s t v hend hres => ?_, fun s hbuf => ?_, fun s hbuf => ?_⟩
  · have hok := resultOk_of_exec hend
    rw [hres] at hok
    simpa only [resultOk, altitudeOk, Bool.and_eq_true, decide_eq_true_eq, beq_iff_eq, and_assoc] using hok
  · exact exec_altb_of_fields (high := 0) (low := 0) (by decide) (by decide) (by rw [hbuf]; decide)
  · exact exec_altb_of_fields (high := 127) (low := 15) (by decide) (by decide) (by rw [hbuf]; decide)

/-! ## ME variants and short frames -/

/-- A variant DECME answers is ME_F's of a 7-byte BUF (R190). -/
theorem meF_of_exec_decme {s t : State} {m : MeVariant} (hend : exec .decme s = .next t) (hres : t.result = .me m) :
    s.bufLen = 7 ∧ meF (bufOperand s) = .ok m := by
  by_cases hl : s.bufLen = 7
  · refine ⟨hl, ?_⟩
    cases hm : meF (bufOperand s) with
    | ok m' =>
      cases hend.symm.trans (exec_decme_of_ok hl hm)
      cases hres
      rfl
    | error e =>
      cases hend.symm.trans (exec_decme_of_error hl hm)
      cases hres
  · cases hend.symm.trans (exec_decme_of_length hl)
    cases hres

/-- Settles O46: `meF_cases` gives the tag and the type code of every variant ME_F answers. -/
theorem variantFollowsTheTypeCode : Obligations.VariantFollowsTheTypeCode := by
  unfold Obligations.VariantFollowsTheTypeCode
  intro s t m hend hres
  obtain ⟨hl, hm⟩ := meF_of_exec_decme hend hres
  have hme := bufOperand_length_seven hl
  rw [← (typeCode_bits hme).1]
  rcases meF_cases _ hme with ⟨m', hm', -, htc, htag, -⟩ | ⟨herr, -⟩
  · cases hm.symm.trans hm'
    exact ⟨htag, htc⟩
  · exact nomatch hm.symm.trans herr

/-- Settles O48: in 7 bytes the data field and the embedded CRC field are both bits 33 to 56. -/
theorem shortFrameDataIsItsCrcField : Obligations.ShortFrameDataIsItsCrcField := by
  unfold Obligations.ShortFrameDataIsItsCrcField
  intro s t r h hl hend hres hpay
  have hlen := bufOperand_length_seven hl
  have hdata : beNat ((bufOperand s).drop 4) = bits (bufOperand s) 33 56 := beNat_of_sliceF (sliceF_data _ hlen)
  cases hend.symm.trans (exec_decfr_of_ok (frameF_seven _ hlen))
  cases hres
  cases hpay
  refine ⟨by rw [hdata], ?_⟩
  simp only [recordFor, hlen, toNat_crc24, hdata]

end Sys2Proof.Proofs.OtherFamily
